-- ==== Sys2Proof/Word.lean ====
section
/-! DEFINITION. The words of the block: a symbol, the three port words (spec/30_encoding.md rules R60, R62, R63;
spec/10_state.md rule R26). Bit 0 is the least significant bit (spec/00_scope.md rule R15). -/

namespace Sys2Proof

/-- A symbol: one byte, unsigned (spec/00_scope.md rules R6 and R14: `SYM_W = 8`). -/
abbrev Byte := BitVec 8

/-- The word on port `CMD`: 10 bits, `op` in bits 9..8 and `sym` in bits 7..0 (rule R60). -/
abbrev CmdWord := BitVec 10

/-- The word on port `RSP`: 9 bits, `err` in bit 8 and `data` in bits 7..0 (rule R62). -/
abbrev RspWord := BitVec 9

/-- The word on port `STATUS`: 3 bits, `FAULT` in bit 2 and `VERDICT` in bits 1..0 (rule R26). -/
abbrev StatusWord := BitVec 3

end Sys2Proof
end

