-- ==== Sys2Proof/Config.lean ====
section
/-! DEFINITION. The configuration record `CFG` (spec/00_scope.md rules R5 to R14; spec/10_state.md rule R27): every
size and table the spec keeps as a named parameter. Which configurations are well formed is WellFormed.lean. -/

namespace Sys2Proof

/-- `INVALID_POLICY` (rule R12): what `TRANSFORM` does with a byte outside the alphabet. -/
inductive InvalidPolicy where
  /-- The source's choice A: raise `InvalidSymbol` and terminate the run. -/
  | fault
  /-- The source's choice B: the byte passes through unchanged. -/
  | pass
deriving DecidableEq, Repr

/-- `CFG` (rule R13). Two of its components are read off the others: `N` is the number of rotor tables
(`Config.N`) and `PLUG_PRESENT` says whether there is a plugboard table (`Config.plugPresent`); DEDUCED, log entry 7. -/
structure Config where
  /-- `A`, the alphabet size (rule R6). -/
  A                : Nat
  /-- `ROTOR[0] .. ROTOR[N-1]`, each a table of `A` bytes (rule R7). -/
  rotor            : List (List Byte)
  /-- `REFL`, a table of `A` bytes (rule R8). -/
  refl             : List Byte
  /-- `REFL_NO_FIXED_POINT` (rule R8); no rule of the machine reads it. -/
  reflNoFixedPoint : Bool
  /-- `PLUG` when `PLUG_PRESENT`, else nothing (rule R9). -/
  plug             : Option (List Byte)
  /-- `START[0] .. START[N-1]`, each a counter value (rule R10). -/
  start            : List Nat
  /-- `EXPECTED`, the expected ciphertext (rule R11). -/
  expected         : List Byte
  /-- `INVALID_POLICY` (rule R12). -/
  invalidPolicy    : InvalidPolicy
deriving DecidableEq, Repr

namespace Config

/-- `N`, the rotor count (rule R5): the number of wiring tables. -/
def N (c : Config) : Nat := c.rotor.length

/-- `L = |EXPECTED|` (rule R11). -/
def L (c : Config) : Nat := c.expected.length

/-- `PLUG_PRESENT` (rule R9). -/
def plugPresent (c : Config) : Bool := c.plug.isSome

/-- `POS_W = max(1, ceil(log2 A))`, the width of a position counter (rule R14): the least `w >= 1` with `A <= 2^w`,
looked for among `1..8` because `A <= 256`. -/
def posW (c : Config) : Nat := ((List.range' 1 8).find? fun w => decide (c.A ≤ 2 ^ w)).getD 8

/-- The configuration `State.reset` stands for: TC1 of spec/95_test_vectors.md section 2.1, the one every worked
example of spec/40_engine.md and spec/41_validator.md uses, with `INVALID_POLICY = FAULT` as spec/92_eei_decisions.md
D9 asks of a model that must pick one. DESIGN CHOICE (log entry 1), unsafe: the spec leaves `CFG` open and says the
test configurations are not the hardware's. No obligation rests on it. -/
def documented : Config where
  A                := 6
  rotor            := [[4, 2, 5, 0, 3, 1], [1, 5, 3, 0, 2, 4]]
  refl             := [3, 4, 5, 0, 1, 2]
  reflNoFixedPoint := true
  plug             := none
  start            := [4, 0]
  expected         := [2, 5, 1, 1, 2, 4, 4, 4]
  invalidPolicy    := .fault

end Config
end Sys2Proof
end

