-- ==== Sys2Proof/Machine/Tables.lean ====
section
/-! DEFINITION. Reads of the constant tables (spec/20_memory.md rules R40, R41; spec/00_scope.md rule R7 for the
derived inverse tables). -/

namespace Sys2Proof.Machine

/-- `T[k]` (rule R41): the byte stored at index `k` of a constant table, as the number it is. The rules never read
outside a table, so what an index past the end gives is no behaviour of the block; it is 0 here (DEDUCED, log entry 3:
safe, no state of a well-formed block reaches it). -/
def readTable (t : List Byte) (k : Nat) : Nat := (t.getD k 0).toNat

/-- The inverse of a wiring table (rule R7): entry `y` is the place of `y` in the table, so that
`inverse[t[x]] = x` for every `x`. Derived, never configured (spec/92_eei_decisions.md D31). -/
def inverseTable (t : List Byte) : List Byte :=
  (List.range t.length).map fun y => BitVec.ofNat 8 (t.idxOf (BitVec.ofNat 8 y))

/-- `ROTOR[i]` (rule R40); empty past the last rotor, which no rule reads (log entry 3). -/
def rotorTable (c : Config) (i : Nat) : List Byte := c.rotor.getD i []

/-- `ROTOR_INV[i]` (rules R7, R40). -/
def rotorInvTable (c : Config) (i : Nat) : List Byte := inverseTable (rotorTable c i)

end Sys2Proof.Machine
end

