-- ==== Sys2Proof/Syntax.lean ====
section
/-! DEFINITION. The four commands, one constructor per row of spec/opcode_table.json (spec/30_encoding.md rules R60,
R61, R65). -/

namespace Sys2Proof

/-- A command word of format C taken apart: the opcode is the constructor, `CMD[7:0]` its argument. `INIT` and
`FINISH` carry their `sym` field too, because the word has it (rule R60) and a disassembler notes it (rule R69);
their meanings ignore it (rule R66). That the constructors carry it is DESIGN CHOICE, log entry 12. -/
inductive Instr where
  /-- `INIT`, op `0b00` (rule R100): begin a run with a fresh engine. -/
  | init (ignored : Byte)
  /-- `FEED sym`, op `0b01` (rule R101): transform one symbol and append the result. -/
  | feed (sym : Byte)
  /-- `XFORM sym`, op `0b10` (rule R88): transform one symbol, append nothing. -/
  | xform (sym : Byte)
  /-- `FINISH`, op `0b11` (rule R104): compare and deliver the verdict. -/
  | finish (ignored : Byte)
deriving DecidableEq, Repr

end Sys2Proof
end

