-- ==== Sys2Proof/WellFormed.lean ====
section
/-! DEFINITION. What is well formed: a configuration (spec/00_scope.md rules R5 to R13), check by check, and a command
in the form an assembler emits (spec/30_encoding.md rule R66). Every check is decided by enumeration, as rule R13
says it can be. -/

namespace Sys2Proof

open Machine (readTable)

/-- No two entries of the list are equal. -/
def noRepeats : List Nat → Bool
  | []      => true
  | x :: xs => !xs.any (fun y => Nat.beq x y) && noRepeats xs

/-- A table of `A` entries, each in `0..A-1` (the shape rules R7, R8 and R9 ask for). -/
def tableInAlphabet (A : Nat) (t : List Byte) : Bool :=
  Nat.beq t.length A && t.all fun v => Nat.blt v.toNat A

/-- Rule R7: "each permutation is a bijection (no two inputs map to the same output)". -/
def isBijection (A : Nat) (t : List Byte) : Bool :=
  tableInAlphabet A t && noRepeats (t.map BitVec.toNat)

/-- Rules R8 and R9: applying the table twice returns the original symbol, for every symbol of the alphabet. -/
def isInvolution (A : Nat) (t : List Byte) : Bool :=
  tableInAlphabet A t && (List.range A).all fun x => Nat.beq (readTable t (readTable t x)) x

/-- Rule R8, the optional further constraint: no symbol maps to itself. -/
def hasNoFixedPoint (A : Nat) (t : List Byte) : Bool :=
  (List.range A).all fun x => !Nat.beq (readTable t x) x

namespace Config

/-- Rule R5: `N >= 1`. -/
def rotorCountOk (c : Config) : Bool := Nat.ble 1 c.N

/-- Rule R6: `1 <= A <= 256`. -/
def alphabetOk (c : Config) : Bool := Nat.ble 1 c.A && Nat.ble c.A 256

/-- Rule R7: every wiring table is a bijection of the alphabet. -/
def rotorsOk (c : Config) : Bool := c.rotor.all (isBijection c.A)

/-- Rule R8: the reflector is an involution. -/
def reflOk (c : Config) : Bool := isInvolution c.A c.refl

/-- Rule R8: when `REFL_NO_FIXED_POINT` is true the reflector has no fixed point. -/
def reflFixedPointOk (c : Config) : Bool := !c.reflNoFixedPoint || hasNoFixedPoint c.A c.refl

/-- Rule R9: the plugboard, where there is one, is an involution; fixed points are allowed. -/
def plugOk (c : Config) : Bool := c.plug.all (isInvolution c.A)

/-- Rule R10: `N` start values, each in `0..A-1`. -/
def startOk (c : Config) : Bool := Nat.beq c.start.length c.N && c.start.all fun p => Nat.blt p c.A

/-- Rule R13: the configuration is well formed. Rules R11 and R12 hold of every `Config` by its type (bytes; one of
two policies), and `L = 0` is allowed by the rules (R11). -/
def wellFormed (c : Config) : Bool :=
  c.rotorCountOk && (c.alphabetOk && (c.startOk && (c.rotorsOk && (c.reflOk && (c.reflFixedPointOk && c.plugOk)))))

end Config

/-- The canonical form, "which an assembler emits and a disassembler expects" (rule R66): the ignored field of `INIT`
and `FINISH` is `0x00`. Every value of `sym` is a value of `FEED` and `XFORM` (rule R64). A command that is not
canonical still decodes and executes (rule R66). -/
def Instr.wellFormed : Instr → Bool
  | .init ignored   => ignored == 0
  | .feed _         => true
  | .xform _        => true
  | .finish ignored => ignored == 0

end Sys2Proof
end

