-- ==== Sys2Proof/Decode.lean ====
section
/-! DEFINITION. The command word (spec/30_encoding.md rules R60, R61, R64, R65, R66): its fields, the decoder, total on
all 1024 words, the encoder, and the opcode map of rule R65 as data. -/

namespace Sys2Proof

/-- `CMD[9:8]` (rule R60). -/
def opField (w : CmdWord) : BitVec 2 := w.extractLsb' 8 2

/-- `CMD[7:0]` (rules R60, R64): the operand, an unsigned byte. -/
def symField (w : CmdWord) : Byte := w.extractLsb' 0 8

/-- `CMD = {op, sym}` (rule R60). -/
def cmdWord (op : BitVec 2) (sym : Byte) : CmdWord := op ++ sym

/-- The decoder (rules R61, R65): every value of `op` is assigned, so every word decodes and none is illegal (R66). -/
def decode (w : CmdWord) : Instr :=
  if opField w = 0b00#2 then .init (symField w)
  else if opField w = 0b01#2 then .feed (symField w)
  else if opField w = 0b10#2 then .xform (symField w)
  else .finish (symField w)

/-- The encoder (rules R60, R61, R67): the opcode of the mnemonic beside its operand field. -/
def encode : Instr → CmdWord
  | .init ignored   => cmdWord 0b00#2 ignored
  | .feed sym       => cmdWord 0b01#2 sym
  | .xform sym      => cmdWord 0b10#2 sym
  | .finish ignored => cmdWord 0b11#2 ignored

/-- Why a number is no command word. -/
inductive DecodeError where
  /-- The number needs more than the 10 bits of port `CMD` (rule R63). Raised by `decodeNumber` (DESIGN CHOICE, log
  entry 6; safe: no such word can stand on the port). -/
  | moreThanTenBits
deriving DecidableEq, Repr

/-- Decoding a number: rejected by name where it has a bit above bit 9, otherwise the decoding of the word. -/
def decodeNumber (n : Nat) : Except DecodeError Instr :=
  if n < 1024 then .ok (decode (BitVec.ofNat 10 n)) else .error .moreThanTenBits

/-- The instruction the decoder reads from the word whose bits are `w`, of which the table gives the lowest `nbits`
(every bit above them is 0). -/
def decodeTableWord (nbits w : Nat) : Option Instr :=
  match decodeNumber (w % 2 ^ nbits) with
  | .ok i    => some i
  | .error _ => none

/-- One row of the opcode map of rule R65. -/
structure OpcodeRow where
  mnemonic : String
  pattern  : CmdWord
  mask     : CmdWord
deriving DecidableEq, Repr

/-- The opcode map, rule R65, row by row. -/
def opcodeTable : List OpcodeRow :=
  [⟨"INIT", 0x000, 0x300⟩, ⟨"FEED", 0x100, 0x300⟩, ⟨"XFORM", 0x200, 0x300⟩, ⟨"FINISH", 0x300, 0x300⟩]

/-- A word selects a row when `w & mask = match` (rule R65). -/
def OpcodeRow.selects (r : OpcodeRow) (w : CmdWord) : Bool := w &&& r.mask == r.pattern

/-- The mnemonic of a command (rule R61). -/
def Instr.mnemonic : Instr → String
  | .init _   => "INIT"
  | .feed _   => "FEED"
  | .xform _  => "XFORM"
  | .finish _ => "FINISH"

end Sys2Proof
end

