-- ==== Sys2Proof/Machine/Operands.lean ====
section
/-! DEFINITION. Operands and arithmetic: the domain test and the two offset operations (spec/40_engine.md rule R91;
spec/00_scope.md rules R6, R16; spec/30_encoding.md rule R64). The operand `sym` itself is `symField`, Decode.lean. -/

namespace Sys2Proof.Machine

/-- `b` is in domain when `b < A` (rules R6 and R91 (d)); the test is part of the semantics, not of decoding (R64). -/
def inDomain (c : Config) (b : Byte) : Bool := Nat.blt b.toNat c.A

/-- Index formation `(x + p) mod A` (rule R91 (b)). -/
def addOffset (A x p : Nat) : Nat := (x + p) % A

/-- Offset removal `(t - p) mod A` (rule R91 (c)): the non-negative representative (rule R16). -/
def subOffset (A t p : Nat) : Nat := (((t : Int) - (p : Int)) % (A : Int)).toNat

/-- A symbol of the alphabet as the byte that carries it on a port or in the buffer (rule R6). -/
def symbolByte (x : Nat) : Byte := BitVec.ofNat 8 x

end Sys2Proof.Machine
end

