-- ==== Sys2Proof/Machine/Rotors.lean ====
section
/-! DEFINITION. The position counters and the stepping rule (spec/40_engine.md rules R80, R81). -/

namespace Sys2Proof.Machine

/-- `POS[i]` (rule R20); 0 past the last counter, which no rule reads (log entry 3). -/
def counter (pos : List Nat) (i : Nat) : Nat := pos.getD i 0

/-- The loop of `STEP` (rule R80) from counter `i` on, with the carry into it: a counter that receives the carry and
stands at `A-1` wraps to 0 and passes the carry on; a carry out of the last counter is dropped. -/
def stepFrom (A : Nat) : Bool → List Nat → List Nat
  | _,     []      => []
  | true,  p :: ps => if p = A - 1 then 0 :: stepFrom A true ps else (p + 1) :: stepFrom A false ps
  | false, p :: ps => p :: stepFrom A false ps

/-- `STEP` (rule R80): "advance the first counter; propagate carry to subsequent counters". -/
def stepCounters (A : Nat) (pos : List Nat) : List Nat := stepFrom A true pos

/-- `k` applications of `STEP`. -/
def stepTimes (A : Nat) : Nat → List Nat → List Nat
  | 0,     pos => pos
  | k + 1, pos => stepTimes A k (stepCounters A pos)

/-- `V(POS)` (rule R81): the counters read as the digits of a base-`A` number, `POS[0]` least significant. -/
def counterValue (A : Nat) : List Nat → Nat
  | []      => 0
  | p :: ps => p + A * counterValue A ps

end Sys2Proof.Machine
end

