-- ==== Sys2Proof/Machine/Pipeline.lean ====
section
/-! DEFINITION. The substitution pipeline (spec/40_engine.md rules R82 to R86): functions of the configuration, the
counters and one symbol of the alphabet; none writes state. -/

namespace Sys2Proof.Machine

/-- The plugboard stage (rule R82): the table where there is one, the identity where not. -/
def plugStage (c : Config) (x : Nat) : Nat :=
  match c.plug with
  | some t => readTable t x
  | none   => x

/-- The reflector stage (rule R85): no offset is applied. -/
def reflStage (c : Config) (x : Nat) : Nat := readTable c.refl x

/-- `(T[(x + p) mod A] - p) mod A`: the lookup both rotor stages make, on their own table (rules R83, R84). -/
def offsetLookup (A : Nat) (t : List Byte) (p x : Nat) : Nat := subOffset A (readTable t (addOffset A x p)) p

/-- The forward stage of rotor `i` (rule R83). -/
def fwdStage (c : Config) (pos : List Nat) (i x : Nat) : Nat :=
  offsetLookup c.A (rotorTable c i) (counter pos i) x

/-- The return stage of rotor `i` (rule R84). -/
def retStage (c : Config) (pos : List Nat) (i x : Nat) : Nat :=
  offsetLookup c.A (rotorInvTable c i) (counter pos i) x

/-- Step 3 of the algorithm: rotors `0, 1, ..., n-1` in that order. -/
def forwardPass (c : Config) (pos : List Nat) : Nat → Nat → Nat
  | 0,     x => x
  | n + 1, x => fwdStage c pos n (forwardPass c pos n x)

/-- Step 5 of the algorithm: rotors `n-1, ..., 1, 0` in that order. -/
def returnPass (c : Config) (pos : List Nat) : Nat → Nat → Nat
  | 0,     x => x
  | n + 1, x => returnPass c pos n (retStage c pos n x)

/-- `SUBST` (rule R86): plugboard, forward pass, reflector, return pass, plugboard. It is `backHalf` after
the reflector after `frontHalf` (rule R89 item 2). -/
def subst (c : Config) (pos : List Nat) (x : Nat) : Nat :=
  plugStage c (returnPass c pos c.N (reflStage c (forwardPass c pos c.N (plugStage c x))))

/-- `F = fwd_{N-1} o ... o fwd_0 o plug` of rule R89 item 2. -/
def frontHalf (c : Config) (pos : List Nat) (x : Nat) : Nat := forwardPass c pos c.N (plugStage c x)

/-- `F^-1` of rule R89 item 2. -/
def backHalf (c : Config) (pos : List Nat) (x : Nat) : Nat := plugStage c (returnPass c pos c.N x)

/-- What `TRANSFORM` answers once the counters have stepped (rule R87). -/
inductive EngineResult where
  /-- The output symbol. -/
  | symbol (y : Byte)
  /-- `raise InvalidSymbol(b)`. -/
  | invalidSymbol (b : Byte)
deriving DecidableEq, Repr

/-- The domain test of `TRANSFORM` and what follows it (rule R87), at the counters after the step. An out-of-domain
byte under `PASS` bypasses every stage. -/
def engineResult (c : Config) (pos : List Nat) (b : Byte) : EngineResult :=
  if inDomain c b then .symbol (symbolByte (subst c pos b.toNat))
  else
    match c.invalidPolicy with
    | .pass  => .symbol b
    | .fault => .invalidSymbol b

end Sys2Proof.Machine
end

