-- ==== Sys2Proof/Machine/State.lean ====
section
/-! DEFINITION. The machine's state (spec/10_state.md rules R20 to R31), its ports (spec/30_encoding.md rule R63), the
ways a step can stop, and the state after reset (rule R31). -/

namespace Sys2Proof.Machine

/-- The ways the machine can stop with a fault: none. Apart from `InvalidSymbol`, which is taken and leaves a next
state, "no command can fail" (spec/60_exceptions.md rule R131); so this type has no constructor. -/
inductive Fault
deriving DecidableEq, Repr

/-- The ways the model can decline to give a step a meaning. -/
inductive Refusal where
  /-- An instruction that has no meaning yet, by its mnemonic. Raised by no arm of `exec`; safe. -/
  | notModelled (mnemonic : String)
  /-- The configuration breaks a constraint of rules R5 to R10. "The spec gives such a configuration no meaning: a
  model refuses it" (spec/70_reset_and_hazards.md rule R144). Raised by `step`, before it looks at a port; safe. -/
  | illFormedConfig
deriving DecidableEq, Repr

/-- `VERDICT` (rule R25). -/
inductive Verdict where
  /-- `0b00`: no `FINISH` has run since the last reset, `INIT`, `FEED` or `XFORM`. -/
  | none
  /-- `0b01`: the source's Accept. -/
  | accept
  /-- `0b10`: the source's Reject. -/
  | reject
  /-- `0b11`: the run was terminated by `InvalidSymbol`. -/
  | faulted
deriving DecidableEq, Repr

/-- What a command answers on port `RSP`: `err` and `data` (rule R62). -/
structure Response where
  err  : Bool
  data : Byte
deriving DecidableEq, Repr

/-- What the host drives on the input ports at one step (rule R63): a command word on `CMD`, or none, and the level
of `RESET`. -/
structure PortInput where
  cmd   : Option CmdWord
  reset : Bool
deriving DecidableEq, Repr

/-- The block and its ports. `pos`, `out`, `fault` and `verdict` are the spec's state record `S` (rule R28). `cfg` is
the constant configuration, hardwired (rule R27). `inputs` and `rsp` are the model's own fields for the ports
(log entry 2): what the host will drive, step by step, and what the block drives on `RSP`. -/
structure State where
  /-- `CFG` (rules R13, R27): no command and no reset changes it. -/
  cfg     : Config
  /-- `POS[0] .. POS[N-1]`, the position counters (rule R20), held as numbers (DESIGN CHOICE, log entry 8). -/
  pos     : List Nat
  /-- `OUT`, the output buffer, index 0 first (rule R22); a sequence, not a map from addresses (DEDUCED, log
  entry 9). -/
  out     : List Byte
  /-- `FAULT` (rule R24). -/
  fault   : Bool
  /-- `VERDICT` (rule R25). -/
  verdict : Verdict
  /-- Port `RSP` (rules R62, R63): the response of the command this step executed, nothing where it executed none. -/
  rsp     : Option Response
  /-- Ports `CMD` and `RESET` (rule R63): what the host drives at the steps to come, the next one first. -/
  inputs  : List PortInput
deriving DecidableEq, Repr

/-- `RESET_STATE(CFG)` (rule R31): every counter at `START`, the buffer empty, `FAULT` and `VERDICT` clear; no response
on the port and nothing driven by the host yet. -/
def State.resetOf (c : Config) : State where
  cfg     := c
  pos     := c.start
  out     := []
  fault   := false
  verdict := .none
  rsp     := none
  inputs  := []

/-- The machine right after reset. The spec leaves the configuration open; this is the block built with
`Config.documented` (DESIGN CHOICE, log entry 1). -/
def State.reset : State := State.resetOf Config.documented

end Sys2Proof.Machine
end

