-- ==== Sys2Proof/Machine/Flags.lean ====
section
/-! DEFINITION. Flags and port words: the verdict function (spec/41_validator.md rule R105), `STATUS`
(spec/10_state.md rules R25, R26) and `RSP` (spec/30_encoding.md rule R62). -/

namespace Sys2Proof.Machine

/-- `verdict_of(S)` (rule R105), from the fault bit, the buffer and `EXPECTED`: "same length AND every symbol equal at
every position", which is equality of the two sequences (spec/00_scope.md rule R16). -/
def verdictFrom (expected : List Byte) (fault : Bool) (out : List Byte) : Verdict :=
  if fault then .faulted
  else if out = expected then .accept
  else .reject

/-- `verdict_of(S)` (rule R105). -/
def verdictOf (s : State) : Verdict := verdictFrom s.cfg.expected s.fault s.out

/-- The two-bit code of a verdict (rule R25). -/
def Verdict.code : Verdict → BitVec 2
  | .none    => 0b00#2
  | .accept  => 0b01#2
  | .reject  => 0b10#2
  | .faulted => 0b11#2

/-- `zext_8(v)` of a verdict code (spec/00_scope.md rule R17). -/
def Verdict.byte (v : Verdict) : Byte := v.code.setWidth 8

/-- `STATUS[2] = FAULT`, `STATUS[1:0] = VERDICT` (rule R26). -/
def statusWord (s : State) : StatusWord := BitVec.ofBool s.fault ++ s.verdict.code

/-- `RSP = {err, data}` (rule R62). -/
def Response.word (r : Response) : RspWord := BitVec.ofBool r.err ++ r.data

end Sys2Proof.Machine
end

