-- ==== Sys2Proof/Machine/Ops.lean ====
section
/-! DEFINITION. The named operations over the state that the commands share: a fresh engine, the buffer append, the
response, the counters' step, taking `InvalidSymbol`, and `TRANSFORM`. -/

namespace Sys2Proof.Machine

/-- `rsp <- (err, data)` (spec/00_scope.md rule R17). -/
def State.respond (r : Response) (s : State) : State := { s with rsp := some r }

/-- No command executed: nothing on `RSP` (spec/70_reset_and_hazards.md rule R140), everything else kept
(spec/60_exceptions.md rule R132: idle between commands, the block keeps all state). -/
def State.idle (s : State) : State := { s with rsp := none }

/-- "Initialize a fresh Cipher Engine instance": the state writes `INIT` and reset share (spec/41_validator.md rule
R100, spec/70_reset_and_hazards.md rule R140). It is also the only way out of the faulted state, the nearest thing to
a return from the exception (spec/60_exceptions.md rule R127). -/
def State.freshEngine (s : State) : State :=
  { s with pos := s.cfg.start, out := [], fault := false, verdict := .none }

/-- `VERDICT <- v`. -/
def State.setVerdict (v : Verdict) (s : State) : State := { s with verdict := v }

/-- `OUT <- OUT ++ [y]` (spec/20_memory.md rule R42): the one write to a space. -/
def State.appendOut (y : Byte) (s : State) : State := { s with out := s.out ++ [y] }

/-- `STEP` on the state's counters (spec/40_engine.md rule R80). -/
def State.stepRotors (s : State) : State := { s with pos := stepCounters s.cfg.A s.pos }

/-- Taking the exception `InvalidSymbol(b)` (spec/60_exceptions.md rules R121, R123, R126): `FAULT <- 1` and the
response `(1, b)`. There is no handler, vector, saved context or mode; the counters have stepped already. -/
def takeInvalidSymbol (b : Byte) (s : State) : State × Response := ({ s with fault := true }, ⟨true, b⟩)

/-- `TRANSFORM(b)` (spec/40_engine.md rule R87): the step first, unconditionally, then the domain test, then the
substitution, the pass-through or the exception. -/
def transform (b : Byte) (s : State) : State × Response :=
  match engineResult s.cfg s.stepRotors.pos b with
  | .symbol y        => (s.stepRotors, ⟨false, y⟩)
  | .invalidSymbol e => takeInvalidSymbol e s.stepRotors

/-- The answer of `FEED` and `XFORM` on a terminated run (rules R101, R88, R121): `(1, sym)`, and no state changes. -/
def State.answerTerminated (sym : Byte) (s : State) : State := s.respond ⟨true, sym⟩

end Sys2Proof.Machine
end

