-- ==== Sys2Proof/Machine/Engine.lean ====
section
/-! DEFINITION. The meaning of `XFORM` (spec/40_engine.md rule R88). -/

namespace Sys2Proof.Machine

/-- `XFORM sym` (rule R88): transform one symbol, append nothing. -/
def execXform (sym : Byte) (s : State) : Host.Outcome State Fault Refusal :=
  if s.fault then .next (s.answerTerminated sym)
  else
    let (s', r) := transform sym (s.setVerdict .none)
    .next (s'.respond r)

end Sys2Proof.Machine
end

