-- ==== Sys2Proof/Machine/Validator.lean ====
section
/-! DEFINITION. The meanings of the validator's commands `INIT`, `FEED` and `FINISH` (spec/41_validator.md rules R100,
R101, R104). -/

namespace Sys2Proof.Machine

/-- `INIT` (rule R100). The operand field is ignored (spec/30_encoding.md rule R66). -/
def execInit (s : State) : Host.Outcome State Fault Refusal :=
  .next (s.freshEngine.respond ⟨false, 0x00⟩)

/-- `FEED sym` (rule R101): transform one symbol and append the result where there is one. -/
def execFeed (sym : Byte) (s : State) : Host.Outcome State Fault Refusal :=
  if s.fault then .next (s.answerTerminated sym)
  else
    let (s', r) := transform sym (s.setVerdict .none)
    .next ((if r.err then s' else s'.appendOut r.data).respond r)

/-- `FINISH` (rule R104): `VERDICT <- verdict_of(S)`, answered as `(FAULT, zext_8(VERDICT))`. The operand field is
ignored (spec/30_encoding.md rule R66). -/
def execFinish (s : State) : Host.Outcome State Fault Refusal :=
  .next ((s.setVerdict (verdictOf s)).respond ⟨s.fault, (verdictOf s).byte⟩)

end Sys2Proof.Machine
end

