-- ==== Sys2Proof/Machine/Dispatch.lean ====
section
/-! DEFINITION. One command executed: the meaning of each constructor of `Instr`. -/

namespace Sys2Proof.Machine

def exec (i : Instr) (s : State) : Host.Outcome State Fault Refusal :=
  match i with
  | .init _ => Sys2Proof.Machine.execInit s
  | .feed sym => Sys2Proof.Machine.execFeed sym s
  | .xform sym => Sys2Proof.Machine.execXform sym s
  | .finish _ => Sys2Proof.Machine.execFinish s

end Sys2Proof.Machine
end

