-- ==== Sys2Proof/Machine/Step.lean ====
section
/-! DEFINITION. One step of the block: what the host drives on `RESET` and `CMD` is served
(spec/30_encoding.md rule R63; spec/20_memory.md rule R51; spec/70_reset_and_hazards.md rule R140). -/

namespace Sys2Proof.Machine

/-- Serving one port input: reset takes precedence over any command (spec/60_exceptions.md rule R125) and gives that
command no response (rule R140; log entry 11); a command word is decoded and executed whole (rule R63); with neither the block is
idle (spec/60_exceptions.md rule R132). -/
def servePort (p : PortInput) (s : State) : Host.Outcome State Fault Refusal :=
  if p.reset then .next s.freshEngine.idle
  else
    match p.cmd with
    | some w => exec (decode w) s
    | none   => .next s.idle

/-- One step. An ill-formed configuration is refused (spec/70_reset_and_hazards.md rule R144; log
entry 10). The next port input is
consumed and served; when the host drives nothing more the block stays idle. -/
def step (s : State) : Host.Outcome State Fault Refusal :=
  if s.cfg.wellFormed then
    match s.inputs with
    | []        => .next s.idle
    | p :: rest => servePort p { s with inputs := rest }
  else .refused .illFormedConfig

/-- `s` with the command whose bits are `w` (of which the table gives the lowest `nbits`) driven on `CMD` at the next
step, so that the next step decodes and executes exactly it. A number that is no command word (`decodeNumber`) cannot
stand on the port and changes nothing. How a program comes to run: DESIGN CHOICE, log entry 4. -/
def State.withFetchWord (s : State) (nbits w : Nat) : State :=
  if w % 2 ^ nbits < 1024 then
    { s with inputs := ⟨some (BitVec.ofNat 10 (w % 2 ^ nbits)), false⟩ :: s.inputs }
  else s

end Sys2Proof.Machine
end

