-- ==== Sys2Proof/Machine/Runs.lean ====
section
/-! DEFINITION. Command sequences: the host driving the port (spec/00_scope.md rules R18, R19), the validation run, and
the source's `validate` (spec/41_validator.md rule R107). -/

namespace Sys2Proof.Machine

/-- The port input that issues a command (spec/30_encoding.md rule R63): its word on `CMD`, `RESET` low. -/
def issue (i : Instr) : PortInput := ⟨some (encode i), false⟩

/-- `s` with the host about to issue the commands of `is`, in order, and nothing more. -/
def State.withCommands (s : State) (is : List Instr) : State := { s with inputs := is.map issue }

/-- `S_k = exec(CFG, S_{k-1}, cmd_k).state` (spec/20_memory.md rule R51): the commands executed in issue order. -/
def execAll : List Instr → State → Host.Outcome State Fault Refusal
  | [],      s => .next s
  | i :: is, s =>
    match exec i s with
    | .next s'   => execAll is s'
    | .fault r   => .fault r
    | .refused r => .refused r

/-- `FEEDS b` (spec/30_encoding.md rule R68). -/
def feeds (b : List Byte) : List Instr := b.map Instr.feed

/-- A validation run (rule R19): `INIT; FEED b_0; ...; FEED b_{n-1}; FINISH`, in canonical words. -/
def validationRun (b : List Byte) : List Instr := .init 0 :: (feeds b ++ [.finish 0])

/-- The rotor state the `k`-th symbol of a run is substituted at, counting from 0: `START` advanced by `k+1` steps
(rules R102, R107). -/
def positionAt (c : Config) (k : Nat) : List Nat := stepTimes c.A (k + 1) c.start

/-- `y_k` of rule R107: `SUBST(b_k)` when `b_k < A`, and `b_k` itself when not. -/
def outputAt (c : Config) (k : Nat) (b : Byte) : Byte :=
  if inDomain c b then symbolByte (subst c (positionAt c k) b.toNat) else b

/-- The output symbols `y_0, ..., y_{n-1}` of an input, by rule R107's formula. -/
def outputsOf (c : Config) (b : List Byte) : List Byte := b.mapIdx (outputAt c)

/-- `validate(b)` by rule R107's formula, a function of `CFG` and `b` alone. That a run of the machine delivers it is
a statement about the machine, not part of this definition. -/
def validate (c : Config) (b : List Byte) : Verdict :=
  if c.invalidPolicy = .fault ∧ ∃ x ∈ b, inDomain c x = false then .faulted
  else if outputsOf c b = c.expected then .accept
  else .reject

end Sys2Proof.Machine
end

