-- ==== Sys2Proof/Machine/Assembler.lean ====
section
/-! DEFINITION. Assembler syntax, pseudo-instructions and disassembly (spec/30_encoding.md rules R67, R68, R69). Text is
a list of characters. What the rules do not fix (blanks, the hexadecimal digits' case, which other lines are errors)
is DESIGN CHOICE, log entry 5. -/

namespace Sys2Proof.Machine

/-- Why a line does not assemble. `operandOutOfRange` is rule R67's; the others name what is no line of the syntax. -/
inductive AsmError where
  /-- "An operand outside `0..255` is an assembly error" (rule R67). -/
  | operandOutOfRange
  /-- A quoted character that is not ASCII has no byte value (rule R67: "a quoted single ASCII character"). -/
  | notAscii
  /-- A quotation that the line does not close, or a quoted character of a length other than one. -/
  | badQuote
  /-- A word that is neither a decimal nor a `0x` hexadecimal number where an operand is due. -/
  | badOperand
  /-- A line that does not start with a mnemonic or pseudo-instruction, or has operands it does not take. -/
  | badLine
deriving DecidableEq, Repr

/-- The pieces a line is cut into. -/
inductive Token where
  | word (cs : List Char)
  | char (c : Char)
  | text (cs : List Char)
  | comma
deriving DecidableEq, Repr

/-- Where the cutter stands in a line; what it has gathered is held backwards. -/
inductive LexMode where
  | gap
  | word (acc : List Char)
  | charOpen
  | charClose (c : Char)
  | text (acc : List Char)
deriving DecidableEq, Repr

def isBlankChar (c : Char) : Bool := c.toNat == 0x20 || c.toNat == 0x09 || c.toNat == 0x0D || c.toNat == 0x0A

/-- Cutting a line into tokens; a `;` outside quotation marks starts a comment (rule R67). -/
def lex : LexMode → List Char → Except AsmError (List Token)
  | .gap, [] => .ok []
  | .word acc, [] => .ok [.word acc.reverse]
  | .charOpen, [] => .error .badQuote
  | .charClose _, [] => .error .badQuote
  | .text _, [] => .error .badQuote
  | .gap, c :: cs =>
    if c = ';' then .ok []
    else if isBlankChar c then lex .gap cs
    else if c = ',' then (lex .gap cs).map (.comma :: ·)
    else if c.toNat = 0x27 then lex .charOpen cs
    else if c.toNat = 0x22 then lex (.text []) cs
    else lex (.word [c]) cs
  | .word acc, c :: cs =>
    if c = ';' then .ok [.word acc.reverse]
    else if isBlankChar c then (lex .gap cs).map (.word acc.reverse :: ·)
    else if c = ',' then (lex .gap cs).map (.word acc.reverse :: .comma :: ·)
    else if c.toNat = 0x27 || c.toNat = 0x22 then .error .badQuote
    else lex (.word (c :: acc)) cs
  | .charOpen, c :: cs => lex (.charClose c) cs
  | .charClose q, c :: cs => if c.toNat = 0x27 then (lex .gap cs).map (.char q :: ·) else .error .badQuote
  | .text acc, c :: cs =>
    if c.toNat = 0x22 then (lex .gap cs).map (.text acc.reverse :: ·) else lex (.text (c :: acc)) cs

/-- The value of a digit in a base up to 16. -/
def digitValue (base : Nat) (c : Char) : Option Nat :=
  let n := c.toNat
  let d := if 0x30 ≤ n ∧ n ≤ 0x39 then some (n - 0x30)
    else if 0x41 ≤ n ∧ n ≤ 0x46 then some (n - 0x41 + 10)
    else if 0x61 ≤ n ∧ n ≤ 0x66 then some (n - 0x61 + 10)
    else none
  d.filter (· < base)

/-- A non-empty run of digits in the given base. -/
def parseDigits (base : Nat) (cs : List Char) : Option Nat :=
  if cs.isEmpty then none
  else cs.foldl (fun acc c => do return (← acc) * base + (← digitValue base c)) (some 0)

/-- A number in decimal or `0x` hexadecimal (rule R67). -/
def parseNumber : List Char → Option Nat
  | '0' :: 'x' :: cs => parseDigits 16 cs
  | cs               => parseDigits 10 cs

/-- An operand's value as the byte it is encoded in, or the assembly error of rule R67. -/
def operandByte (n : Nat) : Except AsmError Byte :=
  if n < 256 then .ok (BitVec.ofNat 8 n) else .error .operandOutOfRange

/-- "The ASCII code of the character is its byte value" (rule R67). -/
def charByte (c : Char) : Except AsmError Byte :=
  if c.toNat < 128 then .ok (BitVec.ofNat 8 c.toNat) else .error .notAscii

/-- One operand of `FEED`, `XFORM`, `FEEDS` or `VALIDATE`. -/
def parseOperand : Token → Except AsmError Byte
  | .word cs =>
    match parseNumber cs with
    | some n => operandByte n
    | none   => .error .badOperand
  | .char c => charByte c
  | .text _ => .error .badOperand
  | .comma  => .error .badOperand

/-- The operands after the first: each behind a comma. -/
def parseMore : List Token → Except AsmError (List Byte)
  | []               => .ok []
  | [_]              => .error .badOperand
  | .comma :: t :: ts => do return (← parseOperand t) :: (← parseMore ts)
  | _ :: _ :: _      => .error .badOperand

/-- The operands of `FEEDS` and `VALIDATE` (rule R68): a comma-separated list, possibly empty, or a quoted string. -/
def parseOperands : List Token → Except AsmError (List Byte)
  | []         => .ok []
  | [.text cs] => cs.mapM charByte
  | t :: ts    => do return (← parseOperand t) :: (← parseMore ts)

/-- A line, parsed: a command or a pseudo-instruction with its operand bytes. -/
inductive Source where
  | init
  | feed (v : Byte)
  | xform (v : Byte)
  | finish
  | feeds (vs : List Byte)
  | validate (vs : List Byte)
deriving DecidableEq, Repr

/-- The expansion of a line (rule R68). -/
def Source.expand : Source → List Instr
  | .init        => [.init 0]
  | .feed v      => [.feed v]
  | .xform v     => [.xform v]
  | .finish      => [.finish 0]
  | .feeds vs    => Machine.feeds vs
  | .validate vs => .init 0 :: (Machine.feeds vs ++ [.finish 0])

/-- A line of tokens; an empty line (or one that holds a comment only) is no command. -/
def parseLine : List Token → Except AsmError (Option Source)
  | [] => .ok none
  | .word m :: ts =>
    if m = "INIT".toList then (if ts = [] then .ok (some .init) else .error .badLine)
    else if m = "FINISH".toList then (if ts = [] then .ok (some .finish) else .error .badLine)
    else if m = "FEED".toList then
      match ts with
      | [t] => do return some (.feed (← parseOperand t))
      | _   => .error .badLine
    else if m = "XFORM".toList then
      match ts with
      | [t] => do return some (.xform (← parseOperand t))
      | _   => .error .badLine
    else if m = "FEEDS".toList then do return some (.feeds (← parseOperands ts))
    else if m = "VALIDATE".toList then do return some (.validate (← parseOperands ts))
    else .error .badLine
  | _ => .error .badLine

/-- The commands of one line of text. -/
def assembleLine (line : List Char) : Except AsmError (List Instr) := do
  match ← parseLine (← lex .gap line) with
  | none   => return []
  | some l => return l.expand

/-- A program is a finite sequence of command words (rule R69): the words of its lines, in order. -/
def assemble (lines : List (List Char)) : Except AsmError (List CmdWord) := do
  return ((← lines.mapM assembleLine).flatten).map encode

/-- A hexadecimal digit. -/
def hexDigit (n : Nat) : Char := "0123456789ABCDEF".toList.getD n '?'

/-- A byte in hexadecimal, as the spec writes it. -/
def hexByte (b : Byte) : List Char := ['0', 'x', hexDigit (b.toNat / 16), hexDigit (b.toNat % 16)]

/-! What the rules say a line's text may be, said without the parser: digits, operands, and the end of a line. -/

/-- `cs` writes the number `n` (rule R67): decimal digits, or `0x` and hexadecimal digits, most significant first. -/
def NumberText (cs : List Char) (n : Nat) : Prop :=
  ∃ digits : List Nat, digits ≠ [] ∧
    ((∀ d ∈ digits, d < 10) ∧ cs = digits.map hexDigit ∧ n = Nat.ofDigits 10 digits.reverse ∨
      (∀ d ∈ digits, d < 16) ∧ cs = '0' :: 'x' :: digits.map hexDigit ∧ n = Nat.ofDigits 16 digits.reverse)

/-- `cs` writes the byte operand `v` (rule R67): a number, or a quoted single ASCII character. -/
def OperandText (cs : List Char) (v : Byte) : Prop :=
  NumberText cs v.toNat ∨ ∃ ch : Char, ch.toNat < 128 ∧ cs = ['\'', ch, '\''] ∧ v = BitVec.ofNat 8 ch.toNat

/-- What may stand behind the last operand of a line: blanks, then nothing or a comment (rule R67). -/
def LineEnd (cs : List Char) : Prop :=
  ∃ (n : Nat) (comment : List Char), cs = List.replicate n ' ' ∨ cs = List.replicate n ' ' ++ ';' :: comment

/-- The note a disassembler prints for a non-zero ignored field (rule R69). -/
def ignoredNote (ignored : Byte) : List Char :=
  if ignored = 0 then [] else " ; ignored field ".toList ++ hexByte ignored

/-- The disassembly of a word (rule R69): the mnemonic followed, for `FEED` and `XFORM`, by `w[7:0]` in hexadecimal;
for `INIT` and `FINISH` a non-zero ignored field is noted, here in a comment. -/
def disassemble (w : CmdWord) : List Char :=
  match decode w with
  | .init ignored   => "INIT".toList ++ ignoredNote ignored
  | .feed sym       => "FEED ".toList ++ hexByte sym
  | .xform sym      => "XFORM ".toList ++ hexByte sym
  | .finish ignored => "FINISH".toList ++ ignoredNote ignored

end Sys2Proof.Machine
end

