-- ==== Sys2Proof/Machine/Realisation.lean ====
section
/-! DEFINITION. The permitted realisation of the output buffer (spec/10_state.md rule R23): instead of `OUT` the block
keeps a saturating count and one sticky mismatch bit. "Not additional state": the normative state is `State.out`; the
compact machine here is the form rule R23 allows, to be shown equivalent. -/

namespace Sys2Proof.Machine

/-- `CNT` and `MISMATCH` (rule R23). -/
structure Comparator where
  count    : Nat
  mismatch : Bool
deriving DecidableEq, Repr

/-- The comparator of an empty buffer. -/
def Comparator.empty : Comparator := ⟨0, false⟩

/-- What an append of `y` does (rule R23): `CNT` saturates at `L+1`; `MISMATCH` is set when `y` lands at an index
`j < L` with `y != EXPECTED[j]`, and is sticky. -/
def Comparator.append (expected : List Byte) (m : Comparator) (y : Byte) : Comparator where
  count    := min (m.count + 1) (expected.length + 1)
  mismatch := m.mismatch || (decide (m.count < expected.length) && decide (expected[m.count]? ≠ some y))

/-- The comparator after the bytes of `out` have been appended in order. -/
def Comparator.ofOut (expected out : List Byte) : Comparator :=
  out.foldl (Comparator.append expected) Comparator.empty

/-- `CNT = L` and `MISMATCH = 0`: what stands for `OUT = EXPECTED` (rule R23). -/
def Comparator.matched (expected : List Byte) (m : Comparator) : Bool :=
  decide (m.count = expected.length) && !m.mismatch

/-- The block in the compact form: `State` with a comparator in the place of `OUT`. -/
structure CompactState where
  cfg        : Config
  pos        : List Nat
  comparator : Comparator
  fault      : Bool
  verdict    : Verdict
  rsp        : Option Response
deriving DecidableEq, Repr

/-- The compact form of a state. -/
def CompactState.ofState (s : State) : CompactState where
  cfg        := s.cfg
  pos        := s.pos
  comparator := Comparator.ofOut s.cfg.expected s.out
  fault      := s.fault
  verdict    := s.verdict
  rsp        := s.rsp

/-- The verdict the compact form gives (rules R23, R105). -/
def CompactState.verdictOf (m : CompactState) : Verdict :=
  if m.fault then .faulted
  else if m.comparator.matched m.cfg.expected then .accept
  else .reject

/-- `FEED` and `XFORM` in the compact form: the counters step and the response is given whatever the comparator holds
(spec/41_validator.md rule R106); `keep` says whether the result is appended. -/
def CompactState.transform (keep : Bool) (sym : Byte) (m : CompactState) : CompactState :=
  if m.fault then { m with rsp := some ⟨true, sym⟩ }
  else
    let pos' := stepCounters m.cfg.A m.pos
    match engineResult m.cfg pos' sym with
    | .symbol y =>
      { m with
        pos := pos', verdict := .none, rsp := some ⟨false, y⟩
        comparator := if keep then m.comparator.append m.cfg.expected y else m.comparator }
    | .invalidSymbol b => { m with pos := pos', fault := true, verdict := .none, rsp := some ⟨true, b⟩ }

/-- One command in the compact form. -/
def compactExec (i : Instr) (m : CompactState) : CompactState :=
  match i with
  | .init _    => { m with pos := m.cfg.start, comparator := .empty, fault := false, verdict := .none,
                           rsp := some ⟨false, 0x00⟩ }
  | .feed sym  => m.transform true sym
  | .xform sym => m.transform false sym
  | .finish _  => { m with verdict := m.verdictOf, rsp := some ⟨m.fault, m.verdictOf.byte⟩ }

end Sys2Proof.Machine
end

