-- ==== Sys2Proof/Machine/Spaces.lean ====
section
/-! DEFINITION. The block's address spaces, read one byte at an index (spec/20_memory.md rule R40), and the table reads
one `TRANSFORM` makes, in order (rule R49). -/

namespace Sys2Proof.Machine

/-- The address spaces of rule R40. They do not overlap: an index of one names no location of another. -/
inductive Space where
  /-- `ROTOR[i]`. -/
  | rotor (i : Nat)
  /-- `ROTOR_INV[i]`, derived (rule R7). -/
  | rotorInv (i : Nat)
  | refl
  /-- `PLUG`, only when `PLUG_PRESENT`. -/
  | plug
  | start
  | expected
  /-- `OUT`, the one space that is ever written. -/
  | out
deriving DecidableEq, Repr

/-- The bytes of a space, index 0 first. -/
def State.spaceBytes (s : State) : Space → List Byte
  | .rotor i    => rotorTable s.cfg i
  | .rotorInv i => rotorInvTable s.cfg i
  | .refl       => s.cfg.refl
  | .plug       => s.cfg.plug.getD []
  | .start      => s.cfg.start.map symbolByte
  | .expected   => s.cfg.expected
  | .out        => s.out

/-- The byte at index `k` of a space (rule R40); nothing where the space has no location `k` (in `OUT`: "the rest not
yet written"). -/
def State.readByte (s : State) (sp : Space) (k : Nat) : Option Byte := (s.spaceBytes sp)[k]?

/-- One read of a table: the space and the index. -/
structure Access where
  space : Space
  index : Nat
deriving DecidableEq, Repr

/-- The plugboard's read of `SUBST`, where there is a plugboard, and the stage's value. -/
def plugRead (c : Config) (x : Nat) : List Access × Nat :=
  match c.plug with
  | some t => ([⟨.plug, x⟩], readTable t x)
  | none   => ([], x)

/-- The forward pass with its reads, rotor 0 first (rule R49). -/
def forwardReads (c : Config) (pos : List Nat) : Nat → Nat → List Access × Nat
  | 0,     x => ([], x)
  | n + 1, x =>
    let (l, v) := forwardReads c pos n x
    (l ++ [⟨.rotor n, addOffset c.A v (counter pos n)⟩], fwdStage c pos n v)

/-- The return pass with its reads, rotor `n-1` first (rule R49). -/
def returnReads (c : Config) (pos : List Nat) : Nat → Nat → List Access × Nat
  | 0,     x => ([], x)
  | n + 1, x =>
    let (l, v) := returnReads c pos n (retStage c pos n x)
    (⟨.rotorInv n, addOffset c.A x (counter pos n)⟩ :: l, v)

/-- `SUBST` with its table reads in the order it makes them (rules R49, R86). -/
def substReads (c : Config) (pos : List Nat) (x : Nat) : List Access × Nat :=
  let (l1, v1) := plugRead c x
  let (l2, v2) := forwardReads c pos c.N v1
  let (l4, v4) := returnReads c pos c.N (reflStage c v2)
  let (l5, v5) := plugRead c v4
  (l1 ++ l2 ++ [⟨.refl, v2⟩] ++ l4 ++ l5, v5)

/-- The table reads of the engine on byte `b` at the counters after the step: none for an out-of-domain byte, which
"never becomes an index" (rule R41). -/
def transformReads (c : Config) (pos : List Nat) (b : Byte) : List Access :=
  if inDomain c b then (substReads c pos b.toNat).1 else []

end Sys2Proof.Machine
end

