-- ==== Sys2Proof/Safety.lean ====
section
/-! DEFINITION. What holds of every state of a well-formed block: the invariants of spec/10_state.md rule R28, and the
states a block can reach. -/

namespace Sys2Proof.Machine

/-- The invariants of rule R28, I1 to I4, over a well-formed configuration (rule R13). `noFaultFullAlphabet` is rule
R24's "and whenever `A = 256`". -/
structure Inv (s : State) : Prop where
  configOk            : s.cfg.wellFormed = true
  /-- I1: `N` counters, -/
  counterCount        : s.pos.length = s.cfg.N
  /-- I1: each with `0 <= POS[i] < A`. -/
  counterRange        : ∀ p ∈ s.pos, p < s.cfg.A
  /-- I2: `VERDICT != NONE` implies `VERDICT = verdict_of(S)`. -/
  verdictCurrent      : s.verdict ≠ .none → s.verdict = verdictOf s
  /-- I3: `INVALID_POLICY = PASS` implies `FAULT = 0`. -/
  noFaultUnderPass    : s.cfg.invalidPolicy = .pass → s.fault = false
  /-- Rule R24: with `A = 256` the fault bit is always 0. -/
  noFaultFullAlphabet : s.cfg.A = 256 → s.fault = false
  /-- I4: under `INVALID_POLICY = FAULT` every element of `OUT` is `< A`. -/
  outInAlphabet       : s.cfg.invalidPolicy = .fault → ∀ y ∈ s.out, y.toNat < s.cfg.A

/-- The states a block built with configuration `c` can reach, whatever the host drives: from reset, by the host
preparing any port inputs and by steps. -/
inductive Reachable (c : Config) : State → Prop where
  | reset : Reachable c (State.resetOf c)
  | drive {s : State} (inputs : List PortInput) (h : Reachable c s) : Reachable c { s with inputs := inputs }
  | step {s s' : State} (h : Reachable c s) (hs : step s = .next s') : Reachable c s'

end Sys2Proof.Machine
end

