-- ==== Sys2Proof/Certificates/Slice0/Obligations.lean ====
section
/-! DEFINITION. The statements about the model, each from the numbered rules of spec/ its docstring names. Every one is
about EVERY configuration (or every well-formed one): none rests on the configuration of `State.reset` (log entry 1).
The fields `inputs` and `rsp` are the model's own form of the ports `CMD`, `RESET` and `RSP` (log entry 2): what a clause
says of the list of inputs (its head is consumed, a command leaves it alone) is the model's choice, not a rule. -/

open Sys2Proof Sys2Proof.Machine Host

/-! ## Configuration and reset -/

/-- Rules R5 to R10 and R13: `Config.wellFormed` is the conjunction of the constraints the rules state. -/
def Obligations.WellFormedConfigurationMeansTheConstraints : Prop :=
  ∀ c : Config, c.wellFormed = true ↔
    1 ≤ c.N ∧ (1 ≤ c.A ∧ c.A ≤ 256) ∧
    (∀ t ∈ c.rotor, t.length = c.A ∧ (∀ x < c.A, readTable t x < c.A) ∧
      ∀ x < c.A, ∀ y < c.A, readTable t x = readTable t y → x = y) ∧
    (c.refl.length = c.A ∧ (∀ x < c.A, readTable c.refl x < c.A) ∧
      ∀ x < c.A, readTable c.refl (readTable c.refl x) = x) ∧
    (c.reflNoFixedPoint = true → ∀ x < c.A, readTable c.refl x ≠ x) ∧
    (∀ t, c.plug = some t → t.length = c.A ∧ (∀ x < c.A, readTable t x < c.A) ∧
      ∀ x < c.A, readTable t (readTable t x) = x) ∧
    (c.start.length = c.N ∧ ∀ p ∈ c.start, p < c.A)

/-- Rule R7: `ROTOR_INV[i]` is the unique table (of `A` entries) with `ROTOR_INV[i][ROTOR[i][x]] = x`. -/
def Obligations.InverseTableIsTheUniqueInverse : Prop :=
  ∀ c : Config, c.wellFormed = true → ∀ i < c.N,
    (rotorInvTable c i).length = c.A ∧
    (∀ x < c.A, readTable (rotorInvTable c i) (readTable (rotorTable c i) x) = x) ∧
    ∀ u : List Byte, u.length = c.A → (∀ x < c.A, readTable u (readTable (rotorTable c i) x) = x) →
      u = rotorInvTable c i

/-- Rule R14: `POS_W` is `max(1, ceil(log2 A))`, said as the least width from 1 up that holds `0..A-1`, and every
counter of a state that meets the invariant fits it. -/
def Obligations.CounterWidthIsLeastThatHoldsTheAlphabet : Prop :=
  (∀ c : Config, c.wellFormed = true →
    1 ≤ c.posW ∧ c.A ≤ 2 ^ c.posW ∧ ∀ w, 1 ≤ w → c.A ≤ 2 ^ w → c.posW ≤ w) ∧
  ∀ s : State, Inv s → ∀ p ∈ s.pos, p < 2 ^ s.cfg.posW

/-- Rule R31: the reset state of every configuration, and that it is the state after `INIT` (which alone answers on
`RSP`). -/
def Obligations.ResetStateIsTheFreshEngine : Prop :=
  ∀ c : Config,
    (State.resetOf c).cfg = c ∧ (State.resetOf c).pos = c.start ∧ (State.resetOf c).out = [] ∧
    (State.resetOf c).fault = false ∧ (State.resetOf c).verdict = .none ∧ statusWord (State.resetOf c) = 0b000#3 ∧
    ∀ (s : State) (ignored : Byte), s.cfg = c →
      exec (.init ignored) s = .next { State.resetOf c with rsp := some ⟨false, 0x00⟩, inputs := s.inputs }

/-- Rule R140 with the last sentence of R125: `RESET` asserted gives the reset state whatever stands on `CMD`, and that
command gets no response. The model's choice (log entry 2): that the reset is one head of `inputs`, consumed, and that
`rsp` is empty after a reset that met no command. -/
def Obligations.ResetPortGivesTheResetState : Prop :=
  ∀ (s : State) (cmd : Option CmdWord) (rest : List PortInput), s.cfg.wellFormed = true →
    s.inputs = ⟨cmd, true⟩ :: rest → step s = .next { State.resetOf s.cfg with inputs := rest }

/-! ## The commands -/

/-- Rule R100: `INIT` writes every counter, the buffer, `FAULT` and `VERDICT`, answers `(0, 0x00)` whatever the state
and the ignored field; `INIT` twice is `INIT` once; and it is the only command that clears `FAULT`. -/
def Obligations.InitBeginsAFreshRun : Prop :=
  ∀ (s : State) (ignored : Byte),
    exec (.init ignored) s =
      .next { s with pos := s.cfg.start, out := [], fault := false, verdict := .none, rsp := some ⟨false, 0x00⟩ } ∧
    (∀ (s' : State) (again : Byte), exec (.init ignored) s = .next s' → exec (.init again) s' = .next s') ∧
    ∀ (i : Instr) (s' : State), exec i s = .next s' → s.fault = true → s'.fault = false → ∃ g, i = .init g

/-- Rule R87: `TRANSFORM`: the counters step first, unconditionally; then the domain test; then the substitution at the
stepped counters, the pass-through, or the exception. -/
def Obligations.TransformStepsThenTestsTheDomain : Prop :=
  ∀ (s : State) (b : Byte),
    let s1 := { s with pos := stepCounters s.cfg.A s.pos }
    (b.toNat < s.cfg.A → transform b s = (s1, ⟨false, BitVec.ofNat 8 (subst s.cfg s1.pos b.toNat)⟩)) ∧
    (s.cfg.A ≤ b.toNat → s.cfg.invalidPolicy = .pass → transform b s = (s1, ⟨false, b⟩)) ∧
    (s.cfg.A ≤ b.toNat → s.cfg.invalidPolicy = .fault → transform b s = ({ s1 with fault := true }, ⟨true, b⟩))

/-- Rule R101 (with R87 inside it): `FEED` in its four cases. -/
def Obligations.FeedTransformsAndAppends : Prop :=
  ∀ (s : State) (sym : Byte),
    let pos' := stepCounters s.cfg.A s.pos
    let y := BitVec.ofNat 8 (subst s.cfg pos' sym.toNat)
    (s.fault = true → exec (.feed sym) s = .next { s with rsp := some ⟨true, sym⟩ }) ∧
    (s.fault = false → sym.toNat < s.cfg.A →
      exec (.feed sym) s =
        .next { s with pos := pos', out := s.out ++ [y], verdict := .none, rsp := some ⟨false, y⟩ }) ∧
    (s.fault = false → s.cfg.A ≤ sym.toNat → s.cfg.invalidPolicy = .pass →
      exec (.feed sym) s =
        .next { s with pos := pos', out := s.out ++ [sym], verdict := .none, rsp := some ⟨false, sym⟩ }) ∧
    (s.fault = false → s.cfg.A ≤ sym.toNat → s.cfg.invalidPolicy = .fault →
      exec (.feed sym) s = .next { s with pos := pos', fault := true, verdict := .none, rsp := some ⟨true, sym⟩ })

/-- Rule R88 (with R87 inside it): `XFORM` in its four cases; it never appends. -/
def Obligations.XformTransformsAndAppendsNothing : Prop :=
  ∀ (s : State) (sym : Byte),
    let pos' := stepCounters s.cfg.A s.pos
    let y := BitVec.ofNat 8 (subst s.cfg pos' sym.toNat)
    (s.fault = true → exec (.xform sym) s = .next { s with rsp := some ⟨true, sym⟩ }) ∧
    (s.fault = false → sym.toNat < s.cfg.A →
      exec (.xform sym) s = .next { s with pos := pos', verdict := .none, rsp := some ⟨false, y⟩ }) ∧
    (s.fault = false → s.cfg.A ≤ sym.toNat → s.cfg.invalidPolicy = .pass →
      exec (.xform sym) s = .next { s with pos := pos', verdict := .none, rsp := some ⟨false, sym⟩ }) ∧
    (s.fault = false → s.cfg.A ≤ sym.toNat → s.cfg.invalidPolicy = .fault →
      exec (.xform sym) s = .next { s with pos := pos', fault := true, verdict := .none, rsp := some ⟨true, sym⟩ })

/-- Rule R104: `FINISH` writes `VERDICT` only and answers `(FAULT, zext_8(VERDICT))`, and `FINISH` twice gives the same
verdict and the same answer twice. -/
def Obligations.FinishDeliversTheVerdict : Prop :=
  ∀ (s : State) (ignored : Byte),
    exec (.finish ignored) s =
      .next { s with verdict := verdictOf s, rsp := some ⟨s.fault, (verdictOf s).code.setWidth 8⟩ } ∧
    ∀ (s' : State) (again : Byte), exec (.finish ignored) s = .next s' → exec (.finish again) s' = .next s'

/-- Rule R105: the verdict function, its comparison said length and element by element; it does not depend on `POS`;
`FAULTED` exists only under `INVALID_POLICY = FAULT`. -/
def Obligations.VerdictIsTheExactComparison : Prop :=
  ∀ s : State,
    (verdictOf s = .faulted ↔ s.fault = true) ∧
    (verdictOf s = .accept ↔
      s.fault = false ∧ s.out.length = s.cfg.L ∧ ∀ j < s.cfg.L, s.out[j]? = s.cfg.expected[j]?) ∧
    (verdictOf s = .reject ↔ verdictOf s ≠ .faulted ∧ verdictOf s ≠ .accept) ∧
    (∀ pos, verdictOf { s with pos := pos } = verdictOf s) ∧
    (Inv s → s.cfg.invalidPolicy = .pass → verdictOf s ≠ .faulted)

/-- Rules R25 and R26: the verdict codes, and `STATUS` bit by bit. -/
def Obligations.StatusIsFaultAndVerdictCode : Prop :=
  Verdict.none.code = 0b00#2 ∧ Verdict.accept.code = 0b01#2 ∧ Verdict.reject.code = 0b10#2 ∧
  Verdict.faulted.code = 0b11#2 ∧
  ∀ s : State, (statusWord s).getLsbD 2 = s.fault ∧ (statusWord s).extractLsb' 0 2 = s.verdict.code

/-- Rule R62: every command answers exactly one response, by the row of the table it falls under; `RSP[8]` is `err`
and `RSP[7:0]` is `data`; and no copy of the last response is kept: what stood on `RSP` before changes nothing. -/
def Obligations.ResponseOfEveryCommand : Prop :=
  (∀ r : Response, r.word.getLsbD 8 = r.err ∧ r.word.extractLsb' 0 8 = r.data) ∧
  (∀ (i : Instr) (s : State) (before : Option Response), exec i { s with rsp := before } = exec i s) ∧
  ∀ s : State,
    (∀ g, ∃ s' r, exec (.init g) s = .next s' ∧ s'.rsp = some r ∧ r.err = false ∧ r.data = 0x00#8) ∧
    (∀ sym i, i = Instr.feed sym ∨ i = Instr.xform sym →
      ∃ s' r, exec i s = .next s' ∧ s'.rsp = some r ∧
        (s.fault = true → r.err = true ∧ r.data = sym) ∧
        (s.fault = false → sym.toNat < s.cfg.A →
          r.err = false ∧ r.data = BitVec.ofNat 8 (subst s.cfg (stepCounters s.cfg.A s.pos) sym.toNat)) ∧
        (s.fault = false → s.cfg.A ≤ sym.toNat → s.cfg.invalidPolicy = .pass → r.err = false ∧ r.data = sym) ∧
        (s.fault = false → s.cfg.A ≤ sym.toNat → s.cfg.invalidPolicy = .fault → r.err = true ∧ r.data = sym)) ∧
    ∀ g, ∃ s' r, exec (.finish g) s = .next s' ∧ s'.rsp = some r ∧ s'.fault = s.fault ∧ r.err = s.fault ∧
      r.data = s'.verdict.code.setWidth 8 ∧
      (s'.verdict = .accept ∧ r.data = 0x01#8 ∧ s.fault = false ∨ s'.verdict = .reject ∧ r.data = 0x02#8 ∧ s.fault = false ∨
        s'.verdict = .faulted ∧ r.data = 0x03#8 ∧ s.fault = true)

/-! ## Frames -/

/-- What `XFORM` and `FINISH` leave alone: they store nothing, so every byte of every space reads as before;
`FINISH` moves no counter and no fault bit, and `XFORM` moves the counters by at most one step (rules R88, R104). -/
def Obligations.XformAndFinishStoreNothing : Prop :=
  ∀ (s s' : State) (i : Instr), exec i s = .next s' →
    ((∃ sym, i = .xform sym) → s'.cfg = s.cfg ∧ s'.inputs = s.inputs ∧
      (∀ sp k, s'.readByte sp k = s.readByte sp k) ∧
      (s'.pos = s.pos ∨ s'.pos = stepCounters s.cfg.A s.pos) ∧ (s.fault = true → s'.fault = true)) ∧
    ((∃ g, i = .finish g) → s'.cfg = s.cfg ∧ s'.inputs = s.inputs ∧
      (∀ sp k, s'.readByte sp k = s.readByte sp k) ∧ s'.pos = s.pos ∧ s'.fault = s.fault)

/-- What `FEED` leaves alone: it stores one byte, at index `|OUT|`, exactly when its response has `err = 0`, and that
byte is the response's; every other byte of every space reads as before (rules R42, R101). -/
def Obligations.FeedStoresOnlyAtTheEndOfOut : Prop :=
  ∀ (s s' : State) (sym : Byte), exec (.feed sym) s = .next s' →
    s'.cfg = s.cfg ∧ s'.inputs = s.inputs ∧ (s'.pos = s.pos ∨ s'.pos = stepCounters s.cfg.A s.pos) ∧
    (s.fault = true → s'.fault = true) ∧
    ∃ r, s'.rsp = some r ∧
      (r.err = false → s'.readByte .out s.out.length = some r.data ∧ s'.out.length = s.out.length + 1 ∧
        ∀ sp k, ¬(sp = .out ∧ k = s.out.length) → s'.readByte sp k = s.readByte sp k) ∧
      (r.err = true → ∀ sp k, s'.readByte sp k = s.readByte sp k)

/-- What `INIT` leaves alone: the configuration, so every byte of every space but `OUT`, which loses every location
(rules R42, R53, R100). -/
def Obligations.InitDiscardsOnlyTheBuffer : Prop :=
  ∀ (s s' : State) (g : Byte), exec (.init g) s = .next s' →
    s'.cfg = s.cfg ∧ s'.inputs = s.inputs ∧ (∀ k, s'.readByte .out k = none) ∧
    ∀ sp k, sp ≠ .out → s'.readByte sp k = s.readByte sp k

/-- Rules R13, R27 and R53: no command and no reset changes the configuration: after any step every table reads as
before, and a run of steps leaves it too. -/
def Obligations.NothingWritesTheConfiguration : Prop :=
  (∀ s s' : State, step s = .next s' →
    s'.cfg = s.cfg ∧ ∀ sp k, sp ≠ .out → s'.readByte sp k = s.readByte sp k) ∧
  ∀ (n : Nat) (s s' : State), Sys2Proof.core.run n s = .next s' → s'.cfg = s.cfg

/-! ## The step -/

/-- Rules R51, R63: a step with a word on `CMD` and `RESET` low executes the decoded command, in the state whose next
input has been consumed. -/
def Obligations.StepExecutesTheDecodedCommand : Prop :=
  ∀ (s : State) (w : CmdWord) (rest : List PortInput), s.cfg.wellFormed = true →
    s.inputs = ⟨some w, false⟩ :: rest → step s = exec (decode w) { s with inputs := rest }

/-- Rule R132: with nothing on the ports the block keeps all its state. That such a step is a step at all, and that it
takes the last response off `RSP`, is the model's choice (log entry 2). -/
def Obligations.IdleStepKeepsAllState : Prop :=
  ∀ s : State, s.cfg.wellFormed = true →
    (s.inputs = [] → step s = .next { s with rsp := none }) ∧
    ∀ rest, s.inputs = ⟨none, false⟩ :: rest → step s = .next { s with rsp := none, inputs := rest }

/-- Rules R18, R131, R144: a step is refused exactly when the configuration is ill formed; otherwise it, and every run
of steps, goes on to a next state, whatever the host drives. -/
def Obligations.WellFormedBlockNeverStops : Prop :=
  (∀ s : State, step s = .refused .illFormedConfig ↔ s.cfg.wellFormed = false) ∧
  ∀ (n : Nat) (s : State), s.cfg.wellFormed = true → ∃ s', Sys2Proof.core.run n s = .next s'

/-- Rule R63: a step that executes a command yields exactly one response; a reset step or an idle step yields none. That
`rsp` is empty after a step that executed no command, and that a step consumes one input, is the model's choice (log
entry 2). -/
def Obligations.OneResponsePerCommand : Prop :=
  ∀ s s' : State, step s = .next s' →
    (s'.rsp ≠ none ↔ ∃ w rest, s.inputs = ⟨some w, false⟩ :: rest) ∧ s'.inputs = s.inputs.tail

/-- Rule R51: the commands of a list issued on the port (in the model's form, log entry 2) are executed in issue order,
each on the state the one before it left. -/
def Obligations.PortRunsCommandsInIssueOrder : Prop :=
  ∀ (is : List Instr) (s : State), s.cfg.wellFormed = true →
    ∃ s', execAll is { s with inputs := [] } = .next s' ∧
      Sys2Proof.core.run is.length (s.withCommands is) = .next s' ∧
      ∀ js, execAll (is ++ js) { s with inputs := [] } = execAll js s'

/-! ## Invariants and whole-machine rules -/

/-- Rule R28: the reset state of every well-formed configuration meets I1 to I4. -/
def Obligations.ResetMeetsTheInvariants : Prop :=
  ∀ c : Config, c.wellFormed = true → Inv (State.resetOf c)

/-- Rule R28: every step keeps I1 to I4, from every state that meets them. -/
def Obligations.EveryStepKeepsTheInvariants : Prop :=
  ∀ s s' : State, Inv s → step s = .next s' → Inv s'

/-- Every state a well-formed block can reach, whatever the host drives, meets I1 to I4 and still has the configuration
it was built with (rules R13, R28). -/
def Obligations.EveryReachableStateMeetsTheInvariants : Prop :=
  ∀ (c : Config) (s : State), c.wellFormed = true → Reachable c s → Inv s ∧ s.cfg = c

/-- Rules R24 and R127: from a faulted state the only steps that clear `FAULT` are `INIT` and reset; every other step
leaves `POS` and `OUT` alone too. -/
def Obligations.OnlyInitAndResetLeaveTheFaultedState : Prop :=
  ∀ s s' : State, step s = .next s' → s.fault = true →
    (s'.fault = false ↔
      ∃ cmd rest, s.inputs = cmd :: rest ∧
        (cmd.reset = true ∨ ∃ w g, cmd.cmd = some w ∧ decode w = .init g)) ∧
    (s'.fault = true → s'.pos = s.pos ∧ s'.out = s.out)

/-- Rules R24 and R120: `FAULT` goes from 0 to 1 exactly at a `FEED` or `XFORM` of a byte `b >= A` under
`INVALID_POLICY = FAULT`. -/
def Obligations.FaultIsRaisedExactlyByInvalidSymbol : Prop :=
  ∀ s s' : State, step s = .next s' → s.fault = false →
    (s'.fault = true ↔
      s.cfg.invalidPolicy = .fault ∧ ∃ w sym rest, s.inputs = ⟨some w, false⟩ :: rest ∧
        (decode w = .feed sym ∨ decode w = .xform sym) ∧ s.cfg.A ≤ sym.toNat)

/-- Rules R121 and R126: what taking `InvalidSymbol` writes, and nothing else: one step of the counters, `VERDICT`,
`FAULT`, the response `(1, b)`; then, until `INIT` or reset, `FEED` and `XFORM` change no state and answer `(1, sym)`,
and `FINISH` writes and returns `FAULTED` with `err = 1`. -/
def Obligations.InvalidSymbolTerminatesTheRun : Prop :=
  (∀ (s : State) (b : Byte) (i : Instr), i = .feed b ∨ i = .xform b → s.fault = false →
    s.cfg.invalidPolicy = .fault → s.cfg.A ≤ b.toNat →
    exec i s = .next { s with pos := stepCounters s.cfg.A s.pos, verdict := .none, fault := true,
                              rsp := some ⟨true, b⟩ }) ∧
  ∀ s : State, s.fault = true →
    (∀ sym, exec (.feed sym) s = .next { s with rsp := some ⟨true, sym⟩ }) ∧
    (∀ sym, exec (.xform sym) s = .next { s with rsp := some ⟨true, sym⟩ }) ∧
    ∀ g, exec (.finish g) s = .next { s with verdict := .faulted, rsp := some ⟨true, 0x03⟩ }

/-- Rule R122: under `PASS` an out-of-domain byte is returned and, by `FEED`, appended unchanged, the counters step,
`FAULT` stays 0, `err = 0`; with `A = 256` no command raises, whatever the policy. -/
def Obligations.PassPolicyReturnsTheByteUnchanged : Prop :=
  (∀ (s : State) (b : Byte), s.fault = false → s.cfg.invalidPolicy = .pass → s.cfg.A ≤ b.toNat →
    exec (.feed b) s = .next { s with pos := stepCounters s.cfg.A s.pos, out := s.out ++ [b], verdict := .none,
                                      rsp := some ⟨false, b⟩ } ∧
    exec (.xform b) s = .next { s with pos := stepCounters s.cfg.A s.pos, verdict := .none,
                                       rsp := some ⟨false, b⟩ }) ∧
  ∀ (s s' : State) (i : Instr), s.cfg.A = 256 → s.fault = false → exec i s = .next s' → s'.fault = false

/-- Rule R12: with `A = 256` the two policies give the same machine. -/
def Obligations.FullAlphabetMakesThePoliciesAgree : Prop :=
  ∀ (s : State) (p : InvalidPolicy) (c : Config) (i : Instr), s.cfg.A = 256 →
    c = { s.cfg with invalidPolicy := p } →
    ∃ s', exec i s = .next s' ∧ exec i { s with cfg := c } = .next { s' with cfg := c }

/-- Rule R22: what is in the buffer is never changed or removed but by `INIT` and reset, and a step appends at most one
byte. -/
def Obligations.BufferIsAppendOnly : Prop :=
  ∀ s s' : State, step s = .next s' →
    (s'.out = s.out ∨ (∃ y, s'.out = s.out ++ [y]) ∨
      s'.out = [] ∧ ∃ cmd rest, s.inputs = cmd :: rest ∧
        (cmd.reset = true ∨ ∃ w g, cmd.cmd = some w ∧ decode w = .init g)) ∧
    ((∃ y, s'.out = s.out ++ [y]) → ∃ w sym rest, s.inputs = ⟨some w, false⟩ :: rest ∧ decode w = .feed sym)

/-- Rule R30: no hidden state. Two states with the same `CFG` and the same `S` answer a command with the same `S` and
the same response, whatever stood on the ports before. -/
def Obligations.ResponseDependsOnlyOnConfigurationAndState : Prop :=
  ∀ (s t : State) (i : Instr), s.cfg = t.cfg → s.pos = t.pos → s.out = t.out → s.fault = t.fault →
    s.verdict = t.verdict →
    ∃ s' t', exec i s = .next s' ∧ exec i t = .next t' ∧ s' = { t' with inputs := s.inputs } ∧
      t'.inputs = t.inputs

/-- Rule R106: `FEED` does not look at `OUT`, `EXPECTED` or `VERDICT`: two runs that differ in nothing else give the
same response, counters and fault bit, for every symbol however many have been fed. -/
def Obligations.FeedIgnoresTheComparison : Prop :=
  ∀ (b : List Byte) (s t : State) (e : List Byte), s.cfg = { t.cfg with expected := e } → s.pos = t.pos →
    s.fault = t.fault → s.rsp = t.rsp →
    ∃ s' t', execAll (feeds b) s = .next s' ∧ execAll (feeds b) t = .next t' ∧
      s'.rsp = t'.rsp ∧ s'.pos = t'.pos ∧ s'.fault = t'.fault

/-! ## The engine -/

/-- Rule R80: the stepping rule counter by counter. `POS[i]` advances exactly when every counter below it stands at
`A-1`; a counter that advances from `A-1` wraps to 0; a carry out of the last counter is dropped. -/
def Obligations.StepAdvancesWithOdometerCarry : Prop :=
  ∀ (A : Nat) (pos : List Nat),
    (stepCounters A pos).length = pos.length ∧
    ∀ i < pos.length, counter (stepCounters A pos) i =
      if ∀ j < i, counter pos j = A - 1 then
        (if counter pos i = A - 1 then 0 else counter pos i + 1)
      else counter pos i

/-- Rule R81, which the spec marks as its own inference from R80: the closed form. `STEP` maps `POS` to the unique `POS'` with `V(POS') = (V(POS) + 1) mod A^N`; `k` steps
add `k`; two states `k` steps apart are equal exactly when `A^N` divides `k`. -/
def Obligations.SteppingCountsModuloThePower : Prop :=
  ∀ (A : Nat) (pos : List Nat), (∀ p ∈ pos, p < A) →
    counterValue A (stepCounters A pos) = (counterValue A pos + 1) % A ^ pos.length ∧
    (∀ pos' : List Nat, pos'.length = pos.length → (∀ p ∈ pos', p < A) →
      counterValue A pos' = (counterValue A pos + 1) % A ^ pos.length → pos' = stepCounters A pos) ∧
    (∀ k, counterValue A (stepTimes A k pos) = (counterValue A pos + k) % A ^ pos.length) ∧
    ∀ j k, stepTimes A (j + k) pos = stepTimes A j pos ↔ A ^ pos.length ∣ k

/-- Rules R82 to R85: the stages, with the table reads written out. The last clause, that a return stage undoes the
forward stage, is the spec's own inference: "`ret_i(fwd_i(x)) = x` `[derived: from rule R83 and 00_scope.md rule R7]`"
(R84). -/
def Obligations.StagesComputeTheStatedLookups : Prop :=
  ∀ (c : Config) (pos : List Nat) (x : Nat), c.wellFormed = true → pos.length = c.N → (∀ p ∈ pos, p < c.A) →
    x < c.A →
    (∀ t, c.plug = some t → ∃ v ∈ t[x]?, plugStage c x = v.toNat) ∧
    (c.plug = none → plugStage c x = x) ∧
    (∃ v ∈ c.refl[x]?, reflStage c x = v.toNat) ∧
    ∀ i < c.N, ∃ p ∈ pos[i]?,
      (∃ t ∈ c.rotor[i]?, ∃ v ∈ t[(x + p) % c.A]?, fwdStage c pos i x = (v.toNat + c.A - p) % c.A) ∧
      (∃ v ∈ (rotorInvTable c i)[(x + p) % c.A]?, retStage c pos i x = (v.toNat + c.A - p) % c.A) ∧
      retStage c pos i (fwdStage c pos i x) = x

/-- Rule R86: `SUBST` as the rule's loop: forward through rotors `0..N-1`, back through rotors `N-1..0`; the result is
always in `0..A-1`, and 0 when `A = 1`. -/
def Obligations.SubstIsTheWholePipeline : Prop :=
  (∀ (c : Config) (pos : List Nat) (x : Nat),
    subst c pos x =
      plugStage c ((List.range c.N).reverse.foldl (fun v i => retStage c pos i v)
        (reflStage c ((List.range c.N).foldl (fun v i => fwdStage c pos i v) (plugStage c x))))) ∧
  ∀ (c : Config) (pos : List Nat) (x : Nat), c.wellFormed = true → x < c.A →
    subst c pos x < c.A ∧ (c.A = 1 → subst c pos x = 0)

/-- Rule R89 items 1 and 2: at any counters, `SUBST` maps the alphabet onto itself one to one, and is an involution. -/
def Obligations.SubstIsAnInvolution : Prop :=
  ∀ (c : Config) (pos : List Nat), c.wellFormed = true → pos.length = c.N → (∀ p ∈ pos, p < c.A) →
    (∀ x < c.A, subst c pos x < c.A ∧ subst c pos (subst c pos x) = x) ∧
    ∀ y < c.A, ∃ x < c.A, subst c pos x = y ∧ ∀ x' < c.A, subst c pos x' = y → x' = x

/-- Rule R89 item 3: the fixed points of `SUBST` are the reflector's, carried back through `F`. -/
def Obligations.SubstFixesExactlyWhatTheReflectorFixes : Prop :=
  ∀ (c : Config) (pos : List Nat), c.wellFormed = true → pos.length = c.N → (∀ p ∈ pos, p < c.A) →
    let F := fun x => forwardPass c pos c.N (plugStage c x)
    (∀ x < c.A, subst c pos x = x ↔ reflStage c (F x) = F x) ∧
    (c.reflNoFixedPoint = true → ∀ x < c.A, subst c pos x ≠ x) ∧
    ∀ u < c.A, reflStage c u = u → ∃ x < c.A, F x = u ∧ subst c pos x = x

/-- Rule R89 item 4: under `PASS`, at fixed counters, the map from the byte to the answer of `TRANSFORM` is one to one
and onto on all 256 bytes. -/
def Obligations.TransformUnderPassIsABijection : Prop :=
  ∀ s : State, s.cfg.wellFormed = true → s.pos.length = s.cfg.N → (∀ p ∈ s.pos, p < s.cfg.A) →
    s.cfg.invalidPolicy = .pass →
    Function.Bijective (fun b : Byte => (transform b s).2.data) ∧ ∀ b, (transform b s).2.err = false

/-- Rule R90: two consecutive calls use different rotor states when `A >= 2`, and call `k + A^N` uses the state of call
`k`; a rotor that is a pure rotation computes the same at every position; with `A = 1` every call returns 0. -/
def Obligations.WhenConsecutiveCallsCoincide : Prop :=
  (∀ (A : Nat) (pos : List Nat), 2 ≤ A → pos ≠ [] → (∀ p ∈ pos, p < A) →
    counter (stepCounters A pos) 0 ≠ counter pos 0 ∧
    ∀ k, stepTimes A (k + A ^ pos.length) pos = stepTimes A k pos) ∧
  (∀ (c : Config) (pos : List Nat) (i k x : Nat), c.wellFormed = true → pos.length = c.N → (∀ p ∈ pos, p < c.A) →
    i < c.N → x < c.A → (∀ z < c.A, readTable (rotorTable c i) z = (z + k) % c.A) →
    fwdStage c pos i x = (x + k) % c.A) ∧
  ∀ (c : Config) (pos : List Nat), c.wellFormed = true → c.A = 1 → subst c pos 0 = 0

/-- Rule R91: index formation needs at most one subtraction of `A`, offset removal at most one addition, the result is
the non-negative representative (R16), and with `A = 256` both are 8-bit wrap-around arithmetic. -/
def Obligations.OffsetArithmeticNeedsOneCorrection : Prop :=
  (∀ A x p : Nat, x < A → p < A →
    addOffset A x p = (if x + p < A then x + p else x + p - A) ∧
    subOffset A x p = (if p ≤ x then x - p else x + A - p) ∧
    addOffset A x p < A ∧ subOffset A x p < A) ∧
  (∀ (A t p : Nat), 0 < A → (A : Int) ∣ ((t : Int) - p) - subOffset A t p ∧ subOffset A t p < A) ∧
  ∀ x p : Byte, addOffset 256 x.toNat p.toNat = (x + p).toNat ∧ subOffset 256 x.toNat p.toNat = (x - p).toNat

/-- Rules R41 and R49: the table reads of one `TRANSFORM` of an in-domain symbol, in order and in number; every read is
inside its table; an out-of-domain byte reads nothing. -/
def Obligations.TransformReadsTheTablesInOrder : Prop :=
  ∀ (s : State) (b : Byte), s.cfg.wellFormed = true → s.pos.length = s.cfg.N → (∀ p ∈ s.pos, p < s.cfg.A) →
    let c := s.cfg
    let reads := transformReads c s.pos b
    let plugs := if c.plugPresent then [Space.plug] else []
    (c.A ≤ b.toNat → reads = []) ∧
    (b.toNat < c.A →
      (substReads c s.pos b.toNat).2 = subst c s.pos b.toNat ∧
      reads.map Access.space =
        plugs ++ (List.range c.N).map Space.rotor ++ [Space.refl] ++
          (List.range c.N).reverse.map Space.rotorInv ++ plugs ∧
      reads.length = 2 * c.N + (if c.plugPresent then 3 else 1) ∧
      ∀ a ∈ reads, a.index < c.A ∧ (s.readByte a.space a.index).isSome = true)

/-- Rule R40: how many locations each space has, and that an entry of a permutation table is a symbol of the
alphabet. -/
def Obligations.SpacesHaveTheStatedLocations : Prop :=
  ∀ s : State, s.cfg.wellFormed = true →
    (∀ i < s.cfg.N, ∀ k, (s.readByte (.rotor i) k).isSome = decide (k < s.cfg.A)) ∧
    (∀ i < s.cfg.N, ∀ k, (s.readByte (.rotorInv i) k).isSome = decide (k < s.cfg.A)) ∧
    (∀ k, (s.readByte .refl k).isSome = decide (k < s.cfg.A)) ∧
    (∀ k, (s.readByte .plug k).isSome = (s.cfg.plugPresent && decide (k < s.cfg.A))) ∧
    (∀ k, (s.readByte .start k).isSome = decide (k < s.cfg.N)) ∧
    (∀ k, (s.readByte .expected k).isSome = decide (k < s.cfg.L)) ∧
    (∀ k, (s.readByte .out k).isSome = decide (k < s.out.length)) ∧
    ∀ sp, sp ≠ .out → sp ≠ .expected → (∀ i, sp = .rotor i ∨ sp = .rotorInv i → i < s.cfg.N) →
      ∀ k, ∀ v ∈ s.readByte sp k, v.toNat < s.cfg.A

/-! ## Validation runs -/

/-- Rule R102, which the spec marks as its own inference from R100 and R101: after a fresh start, with no fault, the `k`-th symbol fed is substituted at `START` advanced by `k+1`
steps (counting `k` from 0), and its output is `OUT[k]`. -/
def Obligations.FeedsSubstituteAtSuccessivePositions : Prop :=
  ∀ (s : State) (b : List Byte) (g : Byte), (s.cfg.invalidPolicy = .fault → ∀ x ∈ b, x.toNat < s.cfg.A) →
    ∃ s', execAll (.init g :: feeds b) s = .next s' ∧
      s'.pos = stepTimes s.cfg.A b.length s.cfg.start ∧ s'.out.length = b.length ∧ s'.fault = false ∧
      s'.verdict = .none ∧
      ∀ k < b.length, ∀ x ∈ b[k]?,
        (x.toNat < s.cfg.A →
          s'.out[k]? = some (BitVec.ofNat 8 (subst s.cfg (stepTimes s.cfg.A (k + 1) s.cfg.start) x.toNat))) ∧
        (s.cfg.A ≤ x.toNat → s'.out[k]? = some x)

/-- Rule R107 (the spec marks that `validate` is a function of `CFG` and the input alone as its own inference): a
validation run through the command port, started from any state, delivers `validate` of its input, in
`VERDICT` and in the last response, a function of `CFG` and the input alone; and which value that is: where no byte
raises, `ACCEPT` exactly when the lengths agree and every `y_k = EXPECTED[k]`, `y_k` being the answer to the `k`-th
`FEED`, and `REJECT` otherwise; where one raises, `FAULTED`. -/
def Obligations.ValidationRunDeliversValidate : Prop :=
  ∀ (s : State) (b : List Byte), s.cfg.wellFormed = true →
    (∃ s', Sys2Proof.core.run (b.length + 2) (s.withCommands (validationRun b)) = .next s' ∧
      s'.verdict = validate s.cfg b ∧ s'.rsp = some ⟨s'.fault, (validate s.cfg b).code.setWidth 8⟩) ∧
    ((s.cfg.invalidPolicy = .fault → ∀ x ∈ b, x.toNat < s.cfg.A) →
      ∃ y : List Byte, y.length = b.length ∧
        (∀ k < b.length, ∀ x ∈ b[k]?, ∃ u, ∃ v ∈ y[k]?,
          Sys2Proof.core.run (k + 2) (s.withCommands (validationRun b)) = .next u ∧ u.rsp = some ⟨false, v⟩ ∧
          u.pos = stepTimes s.cfg.A (k + 1) s.cfg.start ∧
          (x.toNat < s.cfg.A → v = BitVec.ofNat 8 (subst s.cfg u.pos x.toNat)) ∧ (s.cfg.A ≤ x.toNat → v = x)) ∧
        (validate s.cfg b = .accept ↔ b.length = s.cfg.L ∧ ∀ k < b.length, y[k]? = s.cfg.expected[k]?) ∧
        (validate s.cfg b ≠ .accept → validate s.cfg b = .reject)) ∧
    (s.cfg.invalidPolicy = .fault → (∃ x ∈ b, s.cfg.A ≤ x.toNat) → validate s.cfg b = .faulted)

/-- Rule R104 (decision D19): after `INIT`, however often the run was finished along the way, `FINISH` returns
`validate` of all bytes fed so far. -/
def Obligations.EveryFinishValidatesAllBytesFed : Prop :=
  ∀ (s : State) (cs : List Instr) (g h : Byte), (∀ i ∈ cs, (∃ sym, i = .feed sym) ∨ ∃ k, i = .finish k) →
    let fed := cs.filterMap fun | .feed sym => some sym | .init _ => none | .xform _ => none | .finish _ => none
    ∃ s', execAll (.init g :: (cs ++ [.finish h])) s = .next s' ∧ s'.verdict = validate s.cfg fed

/-- Rule R108, which the spec marks as its own inference from R105 and R107: the empty input; a wrong length with no fault; an accepted input doubled; and every proper beginning of
an accepted input (rule R147). -/
def Obligations.WrongLengthIsAlwaysRejected : Prop :=
  ∀ c : Config,
    (1 ≤ c.L → validate c [] = .reject) ∧ (c.L = 0 → validate c [] = .accept) ∧
    (∀ b : List Byte, b.length ≠ c.L → (c.invalidPolicy = .fault → ∀ x ∈ b, x.toNat < c.A) →
      validate c b = .reject) ∧
    (∀ b : List Byte, 1 ≤ c.L → validate c b = .accept → validate c (b ++ b) = .reject) ∧
    ∀ b e : List Byte, e ≠ [] → validate c (b ++ e) = .accept → validate c b = .reject

/-- Rule R111 item 3: changing one symbol of an accepted input gives a verdict other than Accept, and changes exactly
one output symbol. -/
def Obligations.ChangingOneSymbolRejects : Prop :=
  ∀ (c : Config) (b : List Byte) (k : Nat) (x : Byte), c.wellFormed = true → validate c b = .accept →
    k < b.length → b[k]? ≠ some x →
    validate c (b.set k x) ≠ .accept ∧
    outputsOf c (b.set k x) = (outputsOf c b).set k (outputAt c k x) ∧
    ((c.invalidPolicy = .pass ∨ x.toNat < c.A) → (outputsOf c (b.set k x))[k]? ≠ (outputsOf c b)[k]?)

/-- Rule R111 item 4: reciprocity, through the machine: feeding `EXPECTED` after `INIT` collects the accepted input in
`OUT`; and a well-formed configuration whose `EXPECTED` lies in the alphabet has exactly one accepted input. -/
def Obligations.FeedingExpectedReturnsTheSecret : Prop :=
  ∀ c : Config, c.wellFormed = true →
    (∀ (b : List Byte) (s : State) (g : Byte), s.cfg = c → validate c b = .accept → (∀ x ∈ b, x.toNat < c.A) →
      ∃ s', execAll (.init g :: feeds c.expected) s = .next s' ∧ s'.out = b) ∧
    ((∀ y ∈ c.expected, y.toNat < c.A) →
      ∃ b, validate c b = .accept ∧ ∀ b', validate c b' = .accept → b' = b) ∧
    (c.invalidPolicy = .fault → (∃ y ∈ c.expected, c.A ≤ y.toNat) → ∀ b, validate c b ≠ .accept)

/-! ## The permitted realisation of the buffer -/

/-- Rule R23: `CNT = min(|OUT|, L+1)`; `MISMATCH` is set exactly when some stored element differs from `EXPECTED` at its
index; `OUT = EXPECTED` exactly when `CNT = L` and `MISMATCH = 0`. -/
def Obligations.CountAndMismatchStandForTheBuffer : Prop :=
  ∀ expected out : List Byte,
    (Comparator.ofOut expected out).count = min out.length (expected.length + 1) ∧
    ((Comparator.ofOut expected out).mismatch = true ↔
      ∃ j, j < out.length ∧ j < expected.length ∧ out[j]? ≠ expected[j]?) ∧
    (out = expected ↔
      (Comparator.ofOut expected out).count = expected.length ∧ (Comparator.ofOut expected out).mismatch = false)

/-- Rules R23 and R106: the block that keeps `CNT` and `MISMATCH` in the place of `OUT` simulates this one over every
command sequence: same counters, fault bit, verdict and responses. -/
def Obligations.CompactBlockSimulatesTheBlock : Prop :=
  ∀ (is : List Instr) (s s' : State), execAll is s = .next s' →
    is.foldl (fun m i => compactExec i m) (CompactState.ofState s) = CompactState.ofState s'

/-! ## Encoding, assembler, disassembler -/

/-- Rules R60, R61 and R65: the four rows partition all 1024 words, and the decoder gives the row's command with
`CMD[7:0]` as its operand. -/
def Obligations.OpcodeTablePartitionsAllWords : Prop :=
  opcodeTable =
    [⟨"INIT", 0x000#10, 0x300#10⟩, ⟨"FEED", 0x100#10, 0x300#10⟩, ⟨"XFORM", 0x200#10, 0x300#10⟩,
      ⟨"FINISH", 0x300#10, 0x300#10⟩] ∧
  ∀ w : CmdWord,
    ∃ r, opcodeTable.filter (fun r => r.selects w) = [r] ∧ r.mnemonic = (decode w).mnemonic ∧
      (decode w = .init (w.setWidth 8) ∨ decode w = .feed (w.setWidth 8) ∨ decode w = .xform (w.setWidth 8) ∨
        decode w = .finish (w.setWidth 8))

/-- The words of spec/95_test_vectors.md section 2.7, and one number past the port's width (whose refusal is the
model's, log entry 6). -/
def Obligations.WrittenOutWordsDecode : Prop :=
  decode 0x000#10 = .init 0x00 ∧ decode 0x0FF#10 = .init 0xFF ∧ decode 0x100#10 = .feed 0x00 ∧
  decode 0x145#10 = .feed 0x45 ∧ decode 0x1FF#10 = .feed 0xFF ∧ decode 0x200#10 = .xform 0x00 ∧
  decode 0x2A5#10 = .xform 0xA5 ∧ decode 0x300#10 = .finish 0x00 ∧ decode 0x3C3#10 = .finish 0xC3 ∧
  decode 0x3FF#10 = .finish 0xFF ∧ decodeTableWord 16 0x145 = some (.feed 0x45) ∧ decodeTableWord 16 0x400 = none

/-- Decoding and encoding agree on all commands and all words, for programs as for single words (rules R60, R65, R69);
so no bit of a word is lost. The canonical commands are those whose word an assembler emits (rule R66).
`withFetchWord` is the model's (log entry 4). -/
def Obligations.DecodingAndEncodingAgree : Prop :=
  (∀ is : List Instr, (is.map encode).map decode = is) ∧
  (∀ ws : List CmdWord, (ws.map decode).map encode = ws) ∧
  (∀ i : Instr, i.wellFormed = true ↔
    encode i = 0x000#10 ∨ encode i = 0x300#10 ∨ (0x100 ≤ (encode i).toNat ∧ (encode i).toNat < 0x300)) ∧
  ∀ (s : State) (i : Instr), s.cfg.wellFormed = true →
    step (s.withFetchWord 16 (encode i).toNat) = exec i s

/-- Rule R66: the `sym` field of `INIT` and `FINISH` is ignored: all 256 words of each execute the same command. -/
def Obligations.IgnoredFieldChangesNothing : Prop :=
  ∀ (s : State) (w : CmdWord),
    (opField w = 0b00#2 → exec (decode w) s = exec (.init 0x00) s) ∧
    (opField w = 0b11#2 → exec (decode w) s = exec (.finish 0x00) s)

/-- Rule R67: the four commands as lines of text. `FEED` and `XFORM` take every text of a byte, which is a decimal
number, a `0x` hexadecimal number or a quoted ASCII character, and encode as `0x100 + v` and `0x200 + v`; a number past
255 is an assembly error; blanks and a comment may follow, and a line of these alone is no command. Every byte has a
decimal and a hexadecimal text. That blanks separate, that hexadecimal digits may be capitals and the name of the error
are the model's choice (log entry 5). -/
def Obligations.AssemblerEncodesOperands : Prop :=
  (∀ tail : List Char, LineEnd tail →
    (∀ cs v, OperandText cs v →
      assembleLine ("FEED ".toList ++ cs ++ tail) = .ok [.feed v] ∧
      assembleLine ("XFORM ".toList ++ cs ++ tail) = .ok [.xform v]) ∧
    (∀ cs n, NumberText cs n → 256 ≤ n →
      assembleLine ("FEED ".toList ++ cs ++ tail) = .error .operandOutOfRange ∧
      assembleLine ("XFORM ".toList ++ cs ++ tail) = .error .operandOutOfRange) ∧
    assembleLine ("INIT".toList ++ tail) = .ok [.init 0] ∧ assembleLine ("FINISH".toList ++ tail) = .ok [.finish 0] ∧
    assembleLine tail = .ok []) ∧
  (∀ v : Byte, OperandText (Nat.toDigits 10 v.toNat) v ∧ OperandText (hexByte v) v ∧
    (encode (.feed v)).toNat = 0x100 + v.toNat ∧ (encode (.xform v)).toNat = 0x200 + v.toNat) ∧
  (∀ n : Nat, operandByte n = .error .operandOutOfRange ↔ 256 ≤ n) ∧
  encode (.init 0) = 0x000#10 ∧ encode (.finish 0) = 0x300#10

/-- Rule R69 (with R66): a disassembled word assembles again, to the canonical word of the same command. The note of an
ignored field is printed as a comment, the model's choice (log entry 5). -/
def Obligations.DisassemblyAssemblesAgain : Prop :=
  ∀ w : CmdWord, ∃ i, assembleLine (disassemble w) = .ok [i] ∧ i.wellFormed = true ∧
    opField (encode i) = opField w ∧ ((decode w).wellFormed = true → encode i = w)

/-- Rule R68: the pseudo-instructions as lines of text. `FEEDS` and `VALIDATE` take any list of operands, the empty one
too, behind commas, or a quoted string, and expand to the `FEED`s and to the validation run; one number past 255 among
the operands is an assembly error (rule R67). That a blank may follow a comma, that a string holds no quotation mark and
the name of the error are the model's choice (log entry 5). -/
def Obligations.PseudoInstructionsExpand : Prop :=
  (∀ tail sep : List Char, LineEnd tail → sep = [','] ∨ sep = [',', ' '] →
    (∀ ops : List (List Char × Byte), (∀ p ∈ ops, OperandText p.1 p.2) →
      assembleLine ("FEEDS ".toList ++ sep.intercalate (ops.map Prod.fst) ++ tail) = .ok (feeds (ops.map Prod.snd)) ∧
      assembleLine ("VALIDATE ".toList ++ sep.intercalate (ops.map Prod.fst) ++ tail) =
        .ok (validationRun (ops.map Prod.snd))) ∧
    ∀ (pre post : List (List Char × Byte)) (cs : List Char) (n : Nat), (∀ p ∈ pre ++ post, OperandText p.1 p.2) →
      NumberText cs n → 256 ≤ n →
      let line := sep.intercalate (pre.map Prod.fst ++ cs :: post.map Prod.fst) ++ tail
      assembleLine ("FEEDS ".toList ++ line) = .error .operandOutOfRange ∧
      assembleLine ("VALIDATE ".toList ++ line) = .error .operandOutOfRange) ∧
  (∀ tail text : List Char, LineEnd tail → (∀ c ∈ text, c.toNat < 128 ∧ c ≠ '"') →
    assembleLine ("FEEDS ".toList ++ '"' :: text ++ '"' :: tail) =
      .ok (feeds (text.map fun c => BitVec.ofNat 8 c.toNat)) ∧
    assembleLine ("VALIDATE ".toList ++ '"' :: text ++ '"' :: tail) =
      .ok (validationRun (text.map fun c => BitVec.ofNat 8 c.toNat))) ∧
  ∀ vs : List Byte, (Source.feeds vs).expand = vs.map Instr.feed ∧ (Source.validate vs).expand = validationRun vs

/-! ## The accepted input under PASS -/

/-- Rule R111 item 4, which the spec marks as its own inference: under `PASS` every well-formed configuration has exactly
one accepted input; an `EXPECTED[k] >= A` is matched by itself, and any other by `SUBST` at step `k+1` of it. -/
def Obligations.PassPolicyAcceptsExactlyOneInput : Prop :=
  ∀ c : Config, c.wellFormed = true → c.invalidPolicy = .pass →
    ∃ b, validate c b = .accept ∧ (∀ b', validate c b' = .accept → b' = b) ∧ b.length = c.L ∧
      ∀ k < c.L, ∀ y ∈ c.expected[k]?,
        (c.A ≤ y.toNat → b[k]? = some y) ∧
        (y.toNat < c.A → b[k]? = some (BitVec.ofNat 8 (subst c (stepTimes c.A (k + 1) c.start) y.toNat)))
end

