-- ==== Sys2Proof/Laws/Assembler.lean ====
section
/-! SUPPORT. Lines of text (spec/30_encoding.md rules R67, R68): how a line is cut behind a word, what a number's text
parses to, and a list of operands taken through the cutter and the parser at once. -/

namespace Sys2Proof.Machine

/-! ## Numbers -/

theorem digitValue_hexDigit {base d : Nat} (hb : base ≤ 16) (hd : d < base) : digitValue base (hexDigit d) = some d := by
  have h : ∀ d < 16, digitValue 16 (hexDigit d) = some d := by decide
  have := h d (by omega)
  simp only [digitValue, Option.filter_eq_some_iff] at this ⊢
  exact ⟨this.1, by simpa using hd⟩

theorem parseDigits_hexDigit {base : Nat} (hb : base ≤ 16) {digits : List Nat} (hne : digits ≠ [])
    (h : ∀ d ∈ digits, d < base) : parseDigits base (digits.map hexDigit) = some (Nat.ofDigits base digits.reverse) := by
  have key : ∀ (ds : List Nat) (a : Nat), (∀ d ∈ ds, d < base) →
      (ds.map hexDigit).foldl (fun acc c => do return (← acc) * base + (← digitValue base c)) (some a) =
        some (Nat.ofDigits base ds.reverse + base ^ ds.length * a) := by
    intro ds
    induction ds with
    | nil => intro a _; simp
    | cons d ds ih =>
      intro a hd
      have e : digitValue base (hexDigit d) = some d := digitValue_hexDigit hb (hd d (by simp))
      simp only [List.map_cons, List.foldl_cons, e]
      refine (ih (a * base + d) fun x hx => hd x (by simp [hx])).trans ?_
      simp only [List.reverse_cons, Nat.ofDigits_append, List.length_reverse, Nat.ofDigits_singleton, List.length_cons]
      congr 1
      ring
  have he : (digits.map hexDigit).isEmpty = false := by simpa using hne
  simp only [parseDigits, he, Bool.false_eq_true, if_false]
  simpa using key digits 0 h

/-- A number's text parses to the number. -/
theorem NumberText.parse {cs : List Char} {n : Nat} (h : NumberText cs n) : parseNumber cs = some n := by
  obtain ⟨ds, hne, ⟨hd, rfl, rfl⟩ | ⟨hd, rfl, rfl⟩⟩ := h
  · have hx : ∀ d < 10, hexDigit d ≠ 'x' := by decide
    rw [← parseDigits_hexDigit (by omega) hne hd]
    unfold parseNumber
    split
    · rename_i cs' e
      match ds, e with
      | [_], e => simp at e
      | _ :: d :: _, e =>
        simp only [List.map_cons, List.cons.injEq] at e
        exact absurd e.2.1 (hx d (hd d (by simp)))
    · rfl
  · exact parseDigits_hexDigit (by omega) hne hd

/-! ## Cutting a line -/

/-- A character that does not end a word. -/
def wordChar (c : Char) : Bool :=
  !decide (c = ';') && !isBlankChar c && !decide (c = ',') && !(c.toNat = 0x27 || c.toNat = 0x22)

/-- What ends a word without a quotation mark: the end of the line, a blank, a comma or a comment. -/
def WordEnd (rest : List Char) : Prop :=
  rest = [] ∨ ∃ c cs, rest = c :: cs ∧ (c = ';' ∨ c = ' ' ∨ c = ',')

theorem LineEnd.wordEnd {cs : List Char} (h : LineEnd cs) : WordEnd cs := by
  obtain ⟨n, comment, rfl | rfl⟩ := h <;> cases n <;> simp [WordEnd, List.replicate_succ]

theorem lex_lineEnd {cs : List Char} (h : LineEnd cs) : lex .gap cs = .ok [] := by
  obtain ⟨n, comment, rfl | rfl⟩ := h
  all_goals
    induction n with
    | zero => simp [lex]
    | succ n ih => simpa [List.replicate_succ, lex, isBlankChar] using ih

theorem lex_inWord {rest : List Char} (hr : WordEnd rest) (cs acc : List Char) (h : ∀ c ∈ cs, wordChar c = true) :
    lex (.word acc) (cs ++ rest) = (lex .gap rest).map (.word (acc.reverse ++ cs) :: ·) := by
  induction cs generalizing acc with
  | nil =>
    obtain rfl | ⟨c, cs, rfl, rfl | rfl | rfl⟩ := hr
    · simp [lex, Except.map]
    · simp [lex, Except.map]
    · simp [lex, isBlankChar]
    · simp only [List.nil_append, lex, isBlankChar]
      cases lex .gap cs <;> simp [Except.map]
  | cons c cs ih =>
    have hc := h c (by simp)
    simp only [wordChar, Bool.and_eq_true, Bool.not_eq_true', decide_eq_false_iff_not] at hc
    obtain ⟨⟨⟨h1, h2⟩, h3⟩, h4⟩ := hc
    rw [List.cons_append, lex, if_neg h1, if_neg (by simp [h2]), if_neg h3, if_neg (by simp [h4]),
      ih _ fun x hx => h x (by simp [hx])]
    simp

/-- A word, and what stands behind it. -/
theorem lex_word {rest : List Char} (hr : WordEnd rest) {cs : List Char} (hne : cs ≠ [])
    (h : ∀ c ∈ cs, wordChar c = true) : lex .gap (cs ++ rest) = (lex .gap rest).map (.word cs :: ·) := by
  match cs, hne with
  | c :: cs, _ =>
    have hc := h c (by simp)
    simp only [wordChar, Bool.and_eq_true, Bool.not_eq_true', decide_eq_false_iff_not, Bool.or_eq_false_iff] at hc
    obtain ⟨⟨⟨h1, h2⟩, h3⟩, h4, h5⟩ := hc
    rw [List.cons_append, lex, if_neg h1, if_neg (by simp [h2]), if_neg h3, if_neg h4, if_neg h5,
      lex_inWord hr cs [c] fun x hx => h x (by simp [hx])]
    rfl

/-- A mnemonic with operands behind a blank. -/
theorem lex_mnemonic {m line : List Char} {ts : List Token}
    (hm : m = "FEED".toList ∨ m = "XFORM".toList ∨ m = "FEEDS".toList ∨ m = "VALIDATE".toList)
    (h : lex .gap line = .ok ts) : lex .gap (m ++ ' ' :: line) = .ok (.word m :: ts) := by
  have h2 : lex .gap (' ' :: line) = .ok ts := by simpa [lex, isBlankChar] using h
  have hw : m ≠ [] ∧ ∀ c ∈ m, wordChar c = true := by
    rcases hm with rfl | rfl | rfl | rfl <;> simp [wordChar, isBlankChar]
  rw [lex_word (.inr ⟨' ', line, rfl, .inr (.inl rfl)⟩) hw.1 hw.2, h2]
  rfl

theorem NumberText.wordChars {cs : List Char} {n : Nat} (h : NumberText cs n) :
    cs ≠ [] ∧ ∀ c ∈ cs, wordChar c = true := by
  have hd : ∀ d < 16, wordChar (hexDigit d) = true := by decide
  obtain ⟨ds, hne, ⟨hlt, rfl, _⟩ | ⟨hlt, rfl, _⟩⟩ := h
  · refine ⟨by simpa using hne, fun c hc => ?_⟩
    obtain ⟨d, hm, rfl⟩ := List.mem_map.1 hc
    exact hd d (by have := hlt d hm; omega)
  · refine ⟨by simp, fun c hc => ?_⟩
    simp only [List.mem_cons] at hc
    obtain rfl | rfl | hc := hc
    · decide
    · decide
    · obtain ⟨d, hm, rfl⟩ := List.mem_map.1 hc
      exact hd d (hlt d hm)

/-! ## Operands -/

/-- `cs` is the text of an operand that parses to `r`: a byte, or the error of a number past 255. -/
def OperandOf (cs : List Char) (r : Except AsmError Byte) : Prop :=
  (∃ v, OperandText cs v ∧ r = .ok v) ∨ ∃ n, NumberText cs n ∧ 256 ≤ n ∧ r = .error .operandOutOfRange

/-- One operand through the cutter and the parser: it is one token, which is no string. -/
theorem OperandOf.token {cs : List Char} {r : Except AsmError Byte} (h : OperandOf cs r) :
    ∃ t, parseOperand t = r ∧ (∀ x, t ≠ .text x) ∧
      ∀ rest, WordEnd rest → lex .gap (cs ++ rest) = (lex .gap rest).map (t :: ·) := by
  have number : ∀ {n : Nat}, NumberText cs n → operandByte n = r →
      ∃ t, parseOperand t = r ∧ (∀ x, t ≠ .text x) ∧
        ∀ rest, WordEnd rest → lex .gap (cs ++ rest) = (lex .gap rest).map (t :: ·) := fun hn e =>
    ⟨.word cs, by simp [parseOperand, hn.parse, e], by simp, fun _ hr => lex_word hr hn.wordChars.1 hn.wordChars.2⟩
  obtain ⟨v, hn | ⟨ch, hc, rfl, rfl⟩, rfl⟩ | ⟨n, hn, hge, rfl⟩ := h
  · exact number hn (by simp [operandByte, v.isLt])
  · exact ⟨.char ch, by simp [parseOperand, charByte, hc], by simp, fun rest _ => by simp [lex, isBlankChar]⟩
  · exact number hn (by simp [operandByte, Nat.not_lt.2 hge])

/-- The operands behind the first, each behind its comma. -/
theorem parse_more {sep tail : List Char} (ht : LineEnd tail) (hs : sep = [','] ∨ sep = [',', ' '])
    (ops : List (List Char × Except AsmError Byte)) (h : ∀ p ∈ ops, OperandOf p.1 p.2) :
    WordEnd ((ops.map fun p => sep ++ p.1).flatten ++ tail) ∧
    ∃ ts, lex .gap ((ops.map fun p => sep ++ p.1).flatten ++ tail) = .ok ts ∧ parseMore ts = ops.mapM Prod.snd := by
  induction ops with
  | nil => exact ⟨ht.wordEnd, [], lex_lineEnd ht, rfl⟩
  | cons p ops ih =>
    obtain ⟨hw, ts, hl, hp⟩ := ih fun q hq => h q (by simp [hq])
    obtain ⟨t, ht1, _, ht3⟩ := (h p (by simp)).token
    have e : lex .gap (((p :: ops).map fun p => sep ++ p.1).flatten ++ tail) = .ok (.comma :: t :: ts) := by
      have hop := ht3 _ hw
      rw [hl] at hop
      obtain rfl | rfl := hs <;> simp [lex, isBlankChar, Except.map] at hop ⊢ <;> rw [hop]
    refine ⟨?_, _, e, ?_⟩
    · right; obtain rfl | rfl := hs <;> simp
    · simp only [parseMore, ht1, hp, List.mapM_cons]

/-- The operands of `FEEDS` and `VALIDATE`. -/
theorem parse_operands {sep tail : List Char} (ht : LineEnd tail) (hs : sep = [','] ∨ sep = [',', ' '])
    (ops : List (List Char × Except AsmError Byte)) (h : ∀ p ∈ ops, OperandOf p.1 p.2) :
    ∃ ts, lex .gap (sep.intercalate (ops.map Prod.fst) ++ tail) = .ok ts ∧ parseOperands ts = ops.mapM Prod.snd := by
  cases ops with
  | nil => exact ⟨[], by simpa [List.intercalate] using lex_lineEnd ht, rfl⟩
  | cons p ops =>
    obtain ⟨hw, ts, hl, hp⟩ := parse_more ht hs ops fun q hq => h q (by simp [hq])
    obtain ⟨t, ht1, ht2, ht3⟩ := (h p (by simp)).token
    have e : sep.intercalate ((p :: ops).map Prod.fst) = p.1 ++ (ops.map fun p => sep ++ p.1).flatten := by
      clear h hw hl hp ht1 ht2 ht3
      induction ops generalizing p with
      | nil => simp [List.intercalate]
      | cons q ops ih =>
        have := ih q
        simp only [List.intercalate, List.map_cons, List.intersperse_cons_cons, List.flatten_cons, List.append_assoc] at this ⊢
        rw [this]
    refine ⟨t :: ts, ?_, ?_⟩
    · rw [e, List.append_assoc, ht3 _ hw, hl]; rfl
    · have : parseOperands (t :: ts) = (do return (← parseOperand t) :: (← parseMore ts)) := by
        cases t with
        | text x => exact absurd rfl (ht2 x)
        | word _ => rfl
        | char _ => rfl
        | comma => rfl
      rw [this, ht1, hp, List.mapM_cons]

/-- A quoted string through the cutter. -/
theorem lex_string {text : List Char} (h : ∀ c ∈ text, c ≠ '"') (rest acc : List Char) :
    lex (.text acc) (text ++ '"' :: rest) = (lex .gap rest).map (.text (acc.reverse ++ text) :: ·) := by
  induction text generalizing acc with
  | nil => simp [lex]
  | cons c cs ih =>
    have hc : c.toNat ≠ 0x22 := fun e => h c (by simp) (Char.toNat_inj.1 e)
    rw [List.cons_append, lex, if_neg hc, ih (fun x hx => h x (by simp [hx]))]
    simp

theorem mapM_charByte {text : List Char} (h : ∀ c ∈ text, c.toNat < 128) :
    text.mapM charByte = .ok (text.map fun c => BitVec.ofNat 8 c.toNat) := by
  induction text with
  | nil => rfl
  | cons c cs ih =>
    rw [List.mapM_cons, ih fun x hx => h x (by simp [hx])]
    simp [charByte, h c (by simp), bind, Except.bind, pure, Except.pure]

end Sys2Proof.Machine
end

