-- ==== Sys2Proof/Laws/Tables.lean ====
section
/-! SUPPORT. Constant tables: what the checks of WellFormed.lean say of the entries, and that the inverse table inverts
(spec/00_scope.md rules R7, R8, R9). -/

namespace Sys2Proof.Machine

theorem readTable_of_lt {t : List Byte} {k : Nat} (h : k < t.length) : readTable t k = t[k].toNat := by
  simp [readTable, h]

theorem noRepeats_iff_nodup (l : List Nat) : noRepeats l = true ↔ l.Nodup := by
  induction l with
  | nil => simp [noRepeats]
  | cons x xs ih =>
    simp only [noRepeats, Bool.and_eq_true, Bool.not_eq_true', List.any_eq_false, List.nodup_cons, ih, Nat.beq_eq]
    exact and_congr_left fun _ => ⟨fun h hx => h x hx rfl, fun h y hy e => h (e ▸ hy)⟩

/-- A table of `A` entries in `0..A-1`. -/
structure InAlphabet (A : Nat) (t : List Byte) : Prop where
  length : t.length = A
  range  : ∀ k < A, readTable t k < A

/-- A permutation of the alphabet (rule R7). -/
structure PermTable (A : Nat) (t : List Byte) : Prop extends InAlphabet A t where
  inj : ∀ x < A, ∀ y < A, readTable t x = readTable t y → x = y

/-- An involution of the alphabet (rules R8, R9). -/
structure InvolTable (A : Nat) (t : List Byte) : Prop extends InAlphabet A t where
  invol : ∀ x < A, readTable t (readTable t x) = x

theorem tableInAlphabet_iff (A : Nat) (t : List Byte) : tableInAlphabet A t = true ↔ InAlphabet A t := by
  simp only [tableInAlphabet, Bool.and_eq_true, Nat.beq_eq, List.all_eq_true, Nat.blt_eq]
  constructor
  · rintro ⟨hl, hr⟩
    exact ⟨hl, fun k hk => by rw [readTable_of_lt (hl ▸ hk)]; exact hr _ (List.getElem_mem _)⟩
  · rintro ⟨hl, hr⟩
    refine ⟨hl, fun v hv => ?_⟩
    obtain ⟨k, hk, rfl⟩ := List.getElem_of_mem hv
    simpa [readTable_of_lt hk] using hr k (hl ▸ hk)

/-- Every entry of such a table is a symbol of the alphabet. -/
theorem InAlphabet.mem {A : Nat} {t : List Byte} (h : InAlphabet A t) {v : Byte} (hv : v ∈ t) : v.toNat < A := by
  obtain ⟨k, hk, rfl⟩ := List.getElem_of_mem hv
  rw [← readTable_of_lt hk]
  exact h.range k (h.length ▸ hk)

theorem isBijection_iff (A : Nat) (t : List Byte) : isBijection A t = true ↔ PermTable A t := by
  simp only [isBijection, Bool.and_eq_true, tableInAlphabet_iff, noRepeats_iff_nodup]
  constructor
  · rintro ⟨h, hn⟩
    refine ⟨h, fun x hx y hy e => ?_⟩
    have hx' : x < t.length := h.length ▸ hx
    have hy' : y < t.length := h.length ▸ hy
    rw [readTable_of_lt hx', readTable_of_lt hy'] at e
    exact (hn.getElem_inj_iff (hi := by simpa using hx') (hj := by simpa using hy')).1 (by simpa using e)
  · rintro ⟨h, hi⟩
    refine ⟨h, ?_⟩
    rw [List.nodup_iff_injective_get]
    rintro ⟨x, hx⟩ ⟨y, hy⟩ e
    simp only [List.length_map] at hx hy
    have := hi x (h.length ▸ hx) y (h.length ▸ hy)
      (by rw [readTable_of_lt hx, readTable_of_lt hy]; simpa using e)
    exact Fin.ext this

theorem isInvolution_iff (A : Nat) (t : List Byte) : isInvolution A t = true ↔ InvolTable A t := by
  simp only [isInvolution, Bool.and_eq_true, tableInAlphabet_iff, List.all_eq_true, List.mem_range, Nat.beq_eq]
  exact ⟨fun ⟨h, h'⟩ => ⟨h, h'⟩, fun ⟨h, h'⟩ => ⟨h, h'⟩⟩

theorem hasNoFixedPoint_iff (A : Nat) (t : List Byte) :
    hasNoFixedPoint A t = true ↔ ∀ x < A, readTable t x ≠ x := by
  simp [hasNoFixedPoint, ← Nat.beq_eq]

/-- Every symbol of the alphabet is an entry of a permutation. -/
theorem PermTable.surj {A : Nat} {t : List Byte} (h : PermTable A t) {y : Nat} (hy : y < A) :
    ∃ x < A, readTable t x = y := by
  have hinj : Set.InjOn (readTable t) (Finset.range A) := by
    intro a ha b hb e
    exact h.inj a (by simpa using ha) b (by simpa using hb) e
  have hmaps : Set.MapsTo (readTable t) (Finset.range A) (Finset.range A) := by
    intro a ha
    simpa using h.range a (by simpa using ha)
  have hsurj := Finset.surjOn_of_injOn_of_card_le (readTable t) hmaps hinj le_rfl
  obtain ⟨x, hx, e⟩ := hsurj (show y ∈ (Finset.range A : Set Nat) by simpa using hy)
  exact ⟨x, by simpa using hx, e⟩

/-- The inverse table inverts (rule R7: `ROTOR_INV[i][ROTOR[i][x]] = x`). -/
theorem readTable_inverse {A : Nat} {t : List Byte} (h : PermTable A t) (hA : A ≤ 256) {x : Nat} (hx : x < A) :
    readTable (inverseTable t) (readTable t x) = x := by
  have hxl : x < t.length := h.length ▸ hx
  have hy : readTable t x < t.length := h.length ▸ h.range x hx
  have hnodup : t.Nodup := by
    have := (isBijection_iff A t).2 h
    simp only [isBijection, Bool.and_eq_true, noRepeats_iff_nodup] at this
    exact List.Nodup.of_map _ this.2
  have hidx : t.idxOf (BitVec.ofNat 8 (readTable t x)) = x := by
    rw [readTable_of_lt hxl, BitVec.ofNat_toNat, BitVec.setWidth_eq]
    exact hnodup.idxOf_getElem x hxl
  rw [readTable_of_lt (by simpa [inverseTable] using hy)]
  simp only [inverseTable, List.getElem_map, List.getElem_range, hidx, BitVec.toNat_ofNat]
  exact Nat.mod_eq_of_lt (by omega)

/-- And the other way round. -/
theorem readTable_of_inverse {A : Nat} {t : List Byte} (h : PermTable A t) (hA : A ≤ 256) {y : Nat} (hy : y < A) :
    readTable t (readTable (inverseTable t) y) = y := by
  obtain ⟨x, hx, rfl⟩ := h.surj hy
  rw [readTable_inverse h hA hx]

/-- The inverse of a permutation of the alphabet is one too. -/
theorem PermTable.inverse {A : Nat} {t : List Byte} (h : PermTable A t) (hA : A ≤ 256) :
    PermTable A (inverseTable t) where
  length := by simp [inverseTable, h.length]
  range y hy := by
    obtain ⟨x, hx, rfl⟩ := h.surj hy
    rwa [readTable_inverse h hA hx]
  inj x hx y hy e := by
    rw [← readTable_of_inverse h hA hx, e, readTable_of_inverse h hA hy]

/-- What a well-formed configuration holds (rules R5 to R10). -/
structure Valid (c : Config) : Prop where
  A_pos        : 1 ≤ c.A
  A_le         : c.A ≤ 256
  N_pos        : 1 ≤ c.N
  start_length : c.start.length = c.N
  start_range  : ∀ p ∈ c.start, p < c.A
  rotor        : ∀ t ∈ c.rotor, PermTable c.A t
  refl         : InvolTable c.A c.refl
  refl_fixed   : c.reflNoFixedPoint = true → ∀ x < c.A, readTable c.refl x ≠ x
  plug         : ∀ t ∈ c.plug, InvolTable c.A t

theorem wellFormed_iff (c : Config) : c.wellFormed = true ↔ Valid c := by
  simp only [Config.wellFormed, Config.rotorCountOk, Config.alphabetOk, Config.startOk, Config.rotorsOk,
    Config.reflOk, Config.reflFixedPointOk, Config.plugOk, Bool.and_eq_true, Bool.or_eq_true, Bool.not_eq_true',
    Nat.ble_eq, Nat.beq_eq, Nat.blt_eq, List.all_eq_true, Option.all_eq_true, isBijection_iff, isInvolution_iff,
    hasNoFixedPoint_iff]
  constructor
  · rintro ⟨hN, ⟨hA, hA'⟩, ⟨hs, hs'⟩, hr, hf, hff, hp⟩
    exact ⟨hA, hA', hN, hs, hs', hr, hf, fun h => hff.resolve_left (by simp [h]), hp⟩
  · rintro ⟨hA, hA', hN, hs, hs', hr, hf, hff, hp⟩
    refine ⟨hN, ⟨hA, hA'⟩, ⟨hs, hs'⟩, hr, hf, ?_, hp⟩
    cases h : c.reflNoFixedPoint with
    | false => exact .inl rfl
    | true => exact .inr (hff h)

/-- Rotor `i` of a well-formed configuration is a permutation. -/
theorem Valid.rotorTable {c : Config} (h : Valid c) {i : Nat} (hi : i < c.N) : PermTable c.A (rotorTable c i) := by
  have : i < c.rotor.length := hi
  simp only [Machine.rotorTable, List.getD_eq_getElem?_getD, List.getElem?_eq_getElem this, Option.getD_some]
  exact h.rotor _ (List.getElem_mem _)

end Sys2Proof.Machine
end

