-- ==== Sys2Proof/Laws/Rotors.lean ====
section
/-! SUPPORT. The offset arithmetic (spec/40_engine.md rule R91) and the stepping rule (rules R80, R81). -/

namespace Sys2Proof.Machine

theorem inDomain_iff (c : Config) (b : Byte) : inDomain c b = true ↔ b.toNat < c.A := by
  simp [inDomain, Nat.blt_eq]

theorem inDomain_false_iff (c : Config) (b : Byte) : inDomain c b = false ↔ c.A ≤ b.toNat := by
  rw [← Bool.not_eq_true, inDomain_iff, Nat.not_lt]

theorem symbolByte_toNat {x : Nat} (h : x < 256) : (symbolByte x).toNat = x := by
  simp [symbolByte, Nat.mod_eq_of_lt h]

/-- Index formation needs at most one subtraction of `A` (rule R91 (b)). -/
theorem addOffset_eq {A x p : Nat} (hx : x < A) (hp : p < A) :
    addOffset A x p = if x + p < A then x + p else x + p - A := by
  unfold addOffset
  split
  · exact Nat.mod_eq_of_lt ‹_›
  · rw [Nat.mod_eq_sub_mod (by omega), Nat.mod_eq_of_lt (by omega)]

/-- Offset removal needs at most one addition of `A` (rule R91 (c)). -/
theorem subOffset_eq {A t p : Nat} (ht : t < A) (hp : p < A) :
    subOffset A t p = if p ≤ t then t - p else t + A - p := by
  unfold subOffset
  split
  · rw [Int.emod_eq_of_lt (by omega) (by omega)]; omega
  · rw [← Int.add_emod_right, Int.emod_eq_of_lt (by omega) (by omega)]; omega

theorem addOffset_lt {A x p : Nat} (hA : 0 < A) : addOffset A x p < A := Nat.mod_lt _ hA

theorem subOffset_lt {A t p : Nat} (hA : 0 < A) : subOffset A t p < A := by
  have h1 := Int.emod_nonneg ((t : Int) - p) (b := A) (by omega)
  have h2 := Int.emod_lt_of_pos ((t : Int) - p) (b := A) (by omega)
  unfold subOffset
  omega

theorem subOffset_addOffset {A x p : Nat} (hx : x < A) (hp : p < A) : subOffset A (addOffset A x p) p = x := by
  have h := addOffset_lt (x := x) (p := p) (A := A) (by omega)
  rw [subOffset_eq h hp]
  rw [addOffset_eq hx hp] at *
  repeat' split
  all_goals omega

theorem addOffset_subOffset {A t p : Nat} (ht : t < A) (hp : p < A) : addOffset A (subOffset A t p) p = t := by
  have h := subOffset_lt (t := t) (p := p) (A := A) (by omega)
  rw [addOffset_eq h hp]
  rw [subOffset_eq ht hp] at *
  repeat' split
  all_goals omega

/-- The counters of a block with configuration `c` (rule R20): `N` of them, each in `0..A-1`. -/
structure PosOk (c : Config) (pos : List Nat) : Prop where
  length : pos.length = c.N
  range  : ∀ p ∈ pos, p < c.A

theorem Valid.start {c : Config} (h : Valid c) : PosOk c c.start := ⟨h.start_length, h.start_range⟩

theorem counter_of_lt {pos : List Nat} {i : Nat} (h : i < pos.length) : counter pos i = pos[i] := by
  simp [counter, h]

@[simp] theorem counter_cons_zero (p : Nat) (ps : List Nat) : counter (p :: ps) 0 = p := rfl

@[simp] theorem counter_cons_succ (p : Nat) (ps : List Nat) (i : Nat) : counter (p :: ps) (i + 1) = counter ps i := by
  simp [counter]

theorem counter_lt {A : Nat} {pos : List Nat} (hA : 0 < A) (h : ∀ p ∈ pos, p < A) (i : Nat) : counter pos i < A := by
  by_cases hi : i < pos.length
  · rw [counter_of_lt hi]; exact h _ (List.getElem_mem hi)
  · simpa [counter, List.getD_eq_getElem?_getD, List.getElem?_eq_none (Nat.le_of_not_lt hi)] using hA

/-- A counter that gets no carry does not move, nor does any after it. -/
@[simp] theorem stepFrom_false (A : Nat) (pos : List Nat) : stepFrom A false pos = pos := by
  induction pos with
  | nil => rfl
  | cons p ps ih => simp [stepFrom, ih]

/-- One turn of the loop of `STEP`. -/
theorem stepCounters_cons (A p : Nat) (ps : List Nat) :
    stepCounters A (p :: ps) = if p = A - 1 then 0 :: stepCounters A ps else (p + 1) :: ps := by
  simp [stepCounters, stepFrom]

@[simp] theorem stepCounters_nil (A : Nat) : stepCounters A [] = [] := rfl

@[simp] theorem stepCounters_length (A : Nat) (pos : List Nat) : (stepCounters A pos).length = pos.length := by
  induction pos with
  | nil => rfl
  | cons p ps ih => rw [stepCounters_cons]; split <;> simp [ih]

theorem stepCounters_range {A : Nat} {pos : List Nat} (h : ∀ p ∈ pos, p < A) : ∀ p ∈ stepCounters A pos, p < A := by
  induction pos with
  | nil => simp
  | cons q qs ih =>
    have hq := h q (by simp)
    have hqs : ∀ p ∈ qs, p < A := fun p hp => h p (by simp [hp])
    rw [stepCounters_cons]
    split
    · simp only [List.mem_cons, forall_eq_or_imp]; exact ⟨by omega, ih hqs⟩
    · simp only [List.mem_cons, forall_eq_or_imp]; exact ⟨by omega, hqs⟩

theorem PosOk.step {c : Config} {pos : List Nat} (h : PosOk c pos) : PosOk c (stepCounters c.A pos) :=
  ⟨by rw [stepCounters_length, h.length], stepCounters_range h.range⟩

theorem PosOk.stepTimes {c : Config} {pos : List Nat} (h : PosOk c pos) (k : Nat) : PosOk c (stepTimes c.A k pos) := by
  induction k generalizing pos with
  | zero => exact h
  | succ k ih => exact ih h.step

theorem PosOk.counter {c : Config} {pos : List Nat} (h : PosOk c pos) (hA : 0 < c.A) (i : Nat) : counter pos i < c.A :=
  counter_lt hA h.range i

theorem counterValue_lt {A : Nat} {pos : List Nat} (h : ∀ p ∈ pos, p < A) : counterValue A pos < A ^ pos.length := by
  induction pos with
  | nil => simp [counterValue]
  | cons p ps ih =>
    have hp := h p (by simp)
    have := ih fun q hq => h q (by simp [hq])
    simp only [counterValue, List.length_cons, Nat.pow_succ]
    calc p + A * counterValue A ps < A * (counterValue A ps + 1) := by rw [Nat.mul_add]; omega
      _ ≤ A * A ^ ps.length := Nat.mul_le_mul_left _ this
      _ = _ := Nat.mul_comm _ _

/-- The closed form of the stepping rule (rule R81). -/
theorem counterValue_stepCounters {A : Nat} {pos : List Nat} (h : ∀ p ∈ pos, p < A) :
    counterValue A (stepCounters A pos) = (counterValue A pos + 1) % A ^ pos.length := by
  induction pos with
  | nil => simp [counterValue]
  | cons p ps ih =>
    have hp := h p (by simp)
    have hps : ∀ q ∈ ps, q < A := fun q hq => h q (by simp [hq])
    have hv := counterValue_lt hps
    rw [stepCounters_cons]
    split
    · simp only [counterValue, List.length_cons, ih hps, Nat.pow_succ, Nat.zero_add]
      rw [show p + A * counterValue A ps + 1 = A * (counterValue A ps + 1) by rw [Nat.mul_add]; omega,
        Nat.mul_comm (A ^ _) A, Nat.mul_mod_mul_left]
    · simp only [counterValue, List.length_cons, Nat.pow_succ]
      rw [Nat.mod_eq_of_lt]
      · omega
      · calc p + A * counterValue A ps + 1 < A * (counterValue A ps + 1) := by rw [Nat.mul_add]; omega
          _ ≤ A * A ^ ps.length := Nat.mul_le_mul_left _ hv
          _ = _ := Nat.mul_comm _ _

@[simp] theorem stepTimes_length (A k : Nat) (pos : List Nat) : (stepTimes A k pos).length = pos.length := by
  induction k generalizing pos with
  | zero => rfl
  | succ k ih => simp [stepTimes, ih]

theorem stepTimes_range {A : Nat} {pos : List Nat} (k : Nat) (h : ∀ p ∈ pos, p < A) : ∀ p ∈ stepTimes A k pos, p < A := by
  induction k generalizing pos with
  | zero => exact h
  | succ k ih => exact ih (stepCounters_range h)

/-- `k` steps add `k` modulo `A^N` (rule R81). -/
theorem counterValue_stepTimes {A : Nat} {pos : List Nat} (k : Nat) (h : ∀ p ∈ pos, p < A) :
    counterValue A (stepTimes A k pos) = (counterValue A pos + k) % A ^ pos.length := by
  induction k generalizing pos with
  | zero => simp [stepTimes, Nat.mod_eq_of_lt (counterValue_lt h)]
  | succ k ih =>
    rw [stepTimes, ih (stepCounters_range h), stepCounters_length, counterValue_stepCounters h, Nat.mod_add_mod]
    congr 1; omega

/-- The counters are the digits of their value: equal values, equal counters. -/
theorem counterValue_inj {A : Nat} {u v : List Nat} (hu : ∀ p ∈ u, p < A) (hv : ∀ p ∈ v, p < A)
    (hl : u.length = v.length) (h : counterValue A u = counterValue A v) : u = v := by
  induction u generalizing v with
  | nil => simpa using hl.symm
  | cons p ps ih =>
    cases v with
    | nil => simp at hl
    | cons q qs =>
      have hp := hu p (by simp)
      have hq := hv q (by simp)
      simp only [counterValue] at h
      have e1 : p = q := by
        have := congrArg (· % A) h
        simpa [Nat.add_mul_mod_self_left, Nat.mod_eq_of_lt hp, Nat.mod_eq_of_lt hq] using this
      subst e1
      have e2 : counterValue A ps = counterValue A qs := Nat.eq_of_mul_eq_mul_left (by omega : 0 < A) (by omega)
      rw [ih (fun x hx => hu x (by simp [hx])) (fun x hx => hv x (by simp [hx])) (by simpa using hl) e2]

/-- A later step comes after: stepping once more at the end. -/
theorem stepTimes_succ (A k : Nat) (pos : List Nat) :
    stepTimes A (k + 1) pos = stepCounters A (stepTimes A k pos) := by
  induction k generalizing pos with
  | zero => rfl
  | succ k ih => rw [stepTimes, ih, stepTimes]

end Sys2Proof.Machine
end

