-- ==== Sys2Proof/Laws/Pipeline.lean ====
section
/-! SUPPORT. The substitution pipeline (spec/40_engine.md rules R82 to R89): every stage keeps the alphabet, the return
stage undoes the forward stage, and `SUBST` is an involution. -/

namespace Sys2Proof.Machine

theorem offsetLookup_lt {A : Nat} (hA : 0 < A) (t : List Byte) (p x : Nat) : offsetLookup A t p x < A :=
  subOffset_lt hA

/-- Two tables that undo each other make two lookups that undo each other at the same offset (rule R84). -/
theorem offsetLookup_cancel {A p x : Nat} {t u : List Byte} (ht : ∀ k < A, readTable t k < A)
    (hut : ∀ k < A, readTable u (readTable t k) = k) (hp : p < A) (hx : x < A) :
    offsetLookup A u p (offsetLookup A t p x) = x := by
  have hk : addOffset A x p < A := addOffset_lt (by omega)
  unfold offsetLookup
  rw [addOffset_subOffset (ht _ hk) hp, hut _ hk, subOffset_addOffset hx hp]

theorem fwdStage_lt {c : Config} (h : Valid c) (pos : List Nat) (i x : Nat) : fwdStage c pos i x < c.A :=
  offsetLookup_lt h.A_pos _ _ _

theorem retStage_lt {c : Config} (h : Valid c) (pos : List Nat) (i x : Nat) : retStage c pos i x < c.A :=
  offsetLookup_lt h.A_pos _ _ _

theorem retStage_fwdStage {c : Config} (h : Valid c) {pos : List Nat} (hpos : PosOk c pos) {i : Nat} (hi : i < c.N)
    {x : Nat} (hx : x < c.A) : retStage c pos i (fwdStage c pos i x) = x :=
  offsetLookup_cancel (h.rotorTable hi).range (fun _ hk => readTable_inverse (h.rotorTable hi) h.A_le hk)
    (hpos.counter h.A_pos i) hx

theorem fwdStage_retStage {c : Config} (h : Valid c) {pos : List Nat} (hpos : PosOk c pos) {i : Nat} (hi : i < c.N)
    {x : Nat} (hx : x < c.A) : fwdStage c pos i (retStage c pos i x) = x :=
  offsetLookup_cancel ((h.rotorTable hi).inverse h.A_le).range
    (fun _ hk => readTable_of_inverse (h.rotorTable hi) h.A_le hk) (hpos.counter h.A_pos i) hx

theorem plugStage_lt {c : Config} (h : Valid c) {x : Nat} (hx : x < c.A) : plugStage c x < c.A := by
  unfold plugStage
  cases e : c.plug with
  | none => exact hx
  | some t => exact (h.plug t (by simp [e])).range x hx

theorem plugStage_plugStage {c : Config} (h : Valid c) {x : Nat} (hx : x < c.A) :
    plugStage c (plugStage c x) = x := by
  unfold plugStage
  cases e : c.plug with
  | none => rfl
  | some t => exact (h.plug t (by simp [e])).invol x hx

theorem reflStage_lt {c : Config} (h : Valid c) {x : Nat} (hx : x < c.A) : reflStage c x < c.A := h.refl.range x hx

theorem reflStage_reflStage {c : Config} (h : Valid c) {x : Nat} (hx : x < c.A) : reflStage c (reflStage c x) = x :=
  h.refl.invol x hx

theorem forwardPass_lt {c : Config} (h : Valid c) (pos : List Nat) (n : Nat) {x : Nat} (hx : x < c.A) :
    forwardPass c pos n x < c.A := by
  cases n with
  | zero => exact hx
  | succ n => exact fwdStage_lt h _ _ _

theorem returnPass_lt {c : Config} (h : Valid c) (pos : List Nat) (n : Nat) {x : Nat} (hx : x < c.A) :
    returnPass c pos n x < c.A := by
  induction n generalizing x with
  | zero => exact hx
  | succ n ih => exact ih (retStage_lt h _ _ _)

theorem returnPass_forwardPass {c : Config} (h : Valid c) {pos : List Nat} (hpos : PosOk c pos) {n : Nat}
    (hn : n ≤ c.N) {x : Nat} (hx : x < c.A) : returnPass c pos n (forwardPass c pos n x) = x := by
  induction n with
  | zero => rfl
  | succ n ih =>
    rw [forwardPass, returnPass, retStage_fwdStage h hpos (by omega) (forwardPass_lt h pos n hx), ih (by omega)]

theorem forwardPass_returnPass {c : Config} (h : Valid c) {pos : List Nat} (hpos : PosOk c pos) {n : Nat}
    (hn : n ≤ c.N) {x : Nat} (hx : x < c.A) : forwardPass c pos n (returnPass c pos n x) = x := by
  induction n generalizing x with
  | zero => rfl
  | succ n ih =>
    rw [returnPass, forwardPass, ih (by omega) (retStage_lt h _ _ _), fwdStage_retStage h hpos (by omega) hx]

theorem subst_lt {c : Config} (h : Valid c) (pos : List Nat) {x : Nat} (hx : x < c.A) : subst c pos x < c.A :=
  plugStage_lt h (returnPass_lt h _ _ (reflStage_lt h (forwardPass_lt h _ _ (plugStage_lt h hx))))

/-- `SUBST = F^-1 o refl o F` (rule R89 item 2). -/
theorem subst_eq (c : Config) (pos : List Nat) (x : Nat) :
    subst c pos x = backHalf c pos (reflStage c (frontHalf c pos x)) := rfl

theorem frontHalf_lt {c : Config} (h : Valid c) (pos : List Nat) {x : Nat} (hx : x < c.A) : frontHalf c pos x < c.A :=
  forwardPass_lt h _ _ (plugStage_lt h hx)

theorem backHalf_lt {c : Config} (h : Valid c) (pos : List Nat) {x : Nat} (hx : x < c.A) : backHalf c pos x < c.A :=
  plugStage_lt h (returnPass_lt h _ _ hx)

theorem frontHalf_backHalf {c : Config} (h : Valid c) {pos : List Nat} (hpos : PosOk c pos) {x : Nat} (hx : x < c.A) :
    frontHalf c pos (backHalf c pos x) = x := by
  unfold frontHalf backHalf
  rw [plugStage_plugStage h (returnPass_lt h _ _ hx), forwardPass_returnPass h hpos le_rfl hx]

theorem backHalf_frontHalf {c : Config} (h : Valid c) {pos : List Nat} (hpos : PosOk c pos) {x : Nat} (hx : x < c.A) :
    backHalf c pos (frontHalf c pos x) = x := by
  unfold frontHalf backHalf
  rw [returnPass_forwardPass h hpos le_rfl (plugStage_lt h hx), plugStage_plugStage h hx]

/-- At fixed counters `SUBST` undoes itself (rule R89 item 2). -/
theorem subst_subst {c : Config} {pos : List Nat} (h : Valid c) (hpos : PosOk c pos) {x : Nat} (hx : x < c.A) :
    subst c pos (subst c pos x) = x := by
  have h1 := frontHalf_lt h pos hx
  have h2 := reflStage_lt h h1
  rw [subst_eq, subst_eq, frontHalf_backHalf h hpos h2, reflStage_reflStage h h1, backHalf_frontHalf h hpos hx]

/-- The pipeline reads only `A`, the rotors, the reflector and the plugboard (rule R27: `START`, `EXPECTED` and
`INVALID_POLICY` are read elsewhere, `REFL_NO_FIXED_POINT` nowhere). -/
theorem subst_congr {c d : Config} (hA : c.A = d.A) (hr : c.rotor = d.rotor) (hf : c.refl = d.refl)
    (hp : c.plug = d.plug) (pos : List Nat) (x : Nat) : subst c pos x = subst d pos x := by
  have hrot : ∀ i, rotorTable c i = rotorTable d i := fun i => by rw [rotorTable, rotorTable, hr]
  have hfwd : ∀ i y, fwdStage c pos i y = fwdStage d pos i y := fun i y => by rw [fwdStage, fwdStage, hA, hrot]
  have hret : ∀ i y, retStage c pos i y = retStage d pos i y := fun i y => by
    rw [retStage, retStage, hA, rotorInvTable, rotorInvTable, hrot]
  have hplug : ∀ y, plugStage c y = plugStage d y := fun y => by rw [plugStage, plugStage, hp]
  have hrefl : ∀ y, reflStage c y = reflStage d y := fun y => by rw [reflStage, reflStage, hf]
  have hfp : ∀ n y, forwardPass c pos n y = forwardPass d pos n y := by
    intro n y
    induction n with
    | zero => rfl
    | succ n ih => rw [forwardPass, forwardPass, ih, hfwd]
  have hrp : ∀ n y, returnPass c pos n y = returnPass d pos n y := by
    intro n
    induction n with
    | zero => intro y; rfl
    | succ n ih => intro y; rw [returnPass, returnPass, hret, ih]
  have hN : c.N = d.N := by rw [Config.N, Config.N, hr]
  simp only [subst, hplug, hfp, hrp, hrefl, hN]

/-- The engine reads the policy besides. -/
theorem engineResult_congr {c d : Config} (hA : c.A = d.A) (hr : c.rotor = d.rotor) (hf : c.refl = d.refl)
    (hp : c.plug = d.plug) (hi : c.invalidPolicy = d.invalidPolicy) (pos : List Nat) (b : Byte) :
    engineResult c pos b = engineResult d pos b := by
  unfold engineResult inDomain
  rw [hA, hi, subst_congr hA hr hf hp]

/-- What `TRANSFORM` answers, as a byte: the symbol or the echoed byte. -/
theorem engineResult_inDomain {c : Config} {b : Byte} (hb : b.toNat < c.A) (pos : List Nat) :
    engineResult c pos b = .symbol (symbolByte (subst c pos b.toNat)) := by
  simp [engineResult, (inDomain_iff c b).2 hb]

theorem engineResult_pass {c : Config} {b : Byte} (hb : c.A ≤ b.toNat) (hp : c.invalidPolicy = .pass) (pos : List Nat) :
    engineResult c pos b = .symbol b := by
  simp [engineResult, (inDomain_false_iff c b).2 hb, hp]

theorem engineResult_fault {c : Config} {b : Byte} (hb : c.A ≤ b.toNat) (hp : c.invalidPolicy = .fault)
    (pos : List Nat) : engineResult c pos b = .invalidSymbol b := by
  simp [engineResult, (inDomain_false_iff c b).2 hb, hp]

/-- Everything the engine can answer (rule R87). -/
theorem engineResult_cases (c : Config) (pos : List Nat) (b : Byte) :
    (b.toNat < c.A ∧ engineResult c pos b = .symbol (symbolByte (subst c pos b.toNat))) ∨
    (c.A ≤ b.toNat ∧ c.invalidPolicy = .pass ∧ engineResult c pos b = .symbol b) ∨
    (c.A ≤ b.toNat ∧ c.invalidPolicy = .fault ∧ engineResult c pos b = .invalidSymbol b) := by
  rcases Nat.lt_or_ge b.toNat c.A with hb | hb
  · exact .inl ⟨hb, engineResult_inDomain hb pos⟩
  · cases hp : c.invalidPolicy with
    | pass => exact .inr (.inl ⟨hb, rfl, engineResult_pass hb hp pos⟩)
    | fault => exact .inr (.inr ⟨hb, rfl, engineResult_fault hb hp pos⟩)

end Sys2Proof.Machine
end

