-- ==== Sys2Proof/Laws/State.lean ====
section
/-! SUPPORT. What each named update of the state does to each field: one lemma per field per update, so that no later
proof unfolds a record update. -/

namespace Sys2Proof.Machine

@[simp] theorem State.respond_cfg (r : Response) (s : State) : (s.respond r).cfg = s.cfg := rfl
@[simp] theorem State.respond_pos (r : Response) (s : State) : (s.respond r).pos = s.pos := rfl
@[simp] theorem State.respond_out (r : Response) (s : State) : (s.respond r).out = s.out := rfl
@[simp] theorem State.respond_fault (r : Response) (s : State) : (s.respond r).fault = s.fault := rfl
@[simp] theorem State.respond_verdict (r : Response) (s : State) : (s.respond r).verdict = s.verdict := rfl
@[simp] theorem State.respond_rsp (r : Response) (s : State) : (s.respond r).rsp = some r := rfl
@[simp] theorem State.respond_inputs (r : Response) (s : State) : (s.respond r).inputs = s.inputs := rfl

@[simp] theorem State.idle_cfg (s : State) : s.idle.cfg = s.cfg := rfl
@[simp] theorem State.idle_pos (s : State) : s.idle.pos = s.pos := rfl
@[simp] theorem State.idle_out (s : State) : s.idle.out = s.out := rfl
@[simp] theorem State.idle_fault (s : State) : s.idle.fault = s.fault := rfl
@[simp] theorem State.idle_verdict (s : State) : s.idle.verdict = s.verdict := rfl
@[simp] theorem State.idle_rsp (s : State) : s.idle.rsp = none := rfl
@[simp] theorem State.idle_inputs (s : State) : s.idle.inputs = s.inputs := rfl

@[simp] theorem State.freshEngine_cfg (s : State) : s.freshEngine.cfg = s.cfg := rfl
@[simp] theorem State.freshEngine_pos (s : State) : s.freshEngine.pos = s.cfg.start := rfl
@[simp] theorem State.freshEngine_out (s : State) : s.freshEngine.out = [] := rfl
@[simp] theorem State.freshEngine_fault (s : State) : s.freshEngine.fault = false := rfl
@[simp] theorem State.freshEngine_verdict (s : State) : s.freshEngine.verdict = .none := rfl
@[simp] theorem State.freshEngine_rsp (s : State) : s.freshEngine.rsp = s.rsp := rfl
@[simp] theorem State.freshEngine_inputs (s : State) : s.freshEngine.inputs = s.inputs := rfl

@[simp] theorem State.setVerdict_cfg (v : Verdict) (s : State) : (s.setVerdict v).cfg = s.cfg := rfl
@[simp] theorem State.setVerdict_pos (v : Verdict) (s : State) : (s.setVerdict v).pos = s.pos := rfl
@[simp] theorem State.setVerdict_out (v : Verdict) (s : State) : (s.setVerdict v).out = s.out := rfl
@[simp] theorem State.setVerdict_fault (v : Verdict) (s : State) : (s.setVerdict v).fault = s.fault := rfl
@[simp] theorem State.setVerdict_verdict (v : Verdict) (s : State) : (s.setVerdict v).verdict = v := rfl
@[simp] theorem State.setVerdict_rsp (v : Verdict) (s : State) : (s.setVerdict v).rsp = s.rsp := rfl
@[simp] theorem State.setVerdict_inputs (v : Verdict) (s : State) : (s.setVerdict v).inputs = s.inputs := rfl

@[simp] theorem State.appendOut_cfg (y : Byte) (s : State) : (s.appendOut y).cfg = s.cfg := rfl
@[simp] theorem State.appendOut_pos (y : Byte) (s : State) : (s.appendOut y).pos = s.pos := rfl
@[simp] theorem State.appendOut_out (y : Byte) (s : State) : (s.appendOut y).out = s.out ++ [y] := rfl
@[simp] theorem State.appendOut_fault (y : Byte) (s : State) : (s.appendOut y).fault = s.fault := rfl
@[simp] theorem State.appendOut_verdict (y : Byte) (s : State) : (s.appendOut y).verdict = s.verdict := rfl
@[simp] theorem State.appendOut_rsp (y : Byte) (s : State) : (s.appendOut y).rsp = s.rsp := rfl
@[simp] theorem State.appendOut_inputs (y : Byte) (s : State) : (s.appendOut y).inputs = s.inputs := rfl

@[simp] theorem State.stepRotors_cfg (s : State) : s.stepRotors.cfg = s.cfg := rfl
@[simp] theorem State.stepRotors_pos (s : State) : s.stepRotors.pos = stepCounters s.cfg.A s.pos := rfl
@[simp] theorem State.stepRotors_out (s : State) : s.stepRotors.out = s.out := rfl
@[simp] theorem State.stepRotors_fault (s : State) : s.stepRotors.fault = s.fault := rfl
@[simp] theorem State.stepRotors_verdict (s : State) : s.stepRotors.verdict = s.verdict := rfl
@[simp] theorem State.stepRotors_rsp (s : State) : s.stepRotors.rsp = s.rsp := rfl
@[simp] theorem State.stepRotors_inputs (s : State) : s.stepRotors.inputs = s.inputs := rfl

@[simp] theorem State.answerTerminated_cfg (sym : Byte) (s : State) : (s.answerTerminated sym).cfg = s.cfg := rfl
@[simp] theorem State.answerTerminated_pos (sym : Byte) (s : State) : (s.answerTerminated sym).pos = s.pos := rfl
@[simp] theorem State.answerTerminated_out (sym : Byte) (s : State) : (s.answerTerminated sym).out = s.out := rfl
@[simp] theorem State.answerTerminated_fault (sym : Byte) (s : State) : (s.answerTerminated sym).fault = s.fault := rfl
@[simp] theorem State.answerTerminated_verdict (sym : Byte) (s : State) : (s.answerTerminated sym).verdict = s.verdict := rfl
@[simp] theorem State.answerTerminated_rsp (sym : Byte) (s : State) : (s.answerTerminated sym).rsp = some ⟨true, sym⟩ := rfl
@[simp] theorem State.answerTerminated_inputs (sym : Byte) (s : State) : (s.answerTerminated sym).inputs = s.inputs := rfl

@[simp] theorem State.resetOf_cfg (c : Config) : (State.resetOf c).cfg = c := rfl
@[simp] theorem State.resetOf_pos (c : Config) : (State.resetOf c).pos = c.start := rfl
@[simp] theorem State.resetOf_out (c : Config) : (State.resetOf c).out = [] := rfl
@[simp] theorem State.resetOf_fault (c : Config) : (State.resetOf c).fault = false := rfl
@[simp] theorem State.resetOf_verdict (c : Config) : (State.resetOf c).verdict = .none := rfl
@[simp] theorem State.resetOf_rsp (c : Config) : (State.resetOf c).rsp = none := rfl
@[simp] theorem State.resetOf_inputs (c : Config) : (State.resetOf c).inputs = [] := rfl

@[simp] theorem takeInvalidSymbol_cfg (b : Byte) (s : State) : (takeInvalidSymbol b s).1.cfg = s.cfg := rfl
@[simp] theorem takeInvalidSymbol_pos (b : Byte) (s : State) : (takeInvalidSymbol b s).1.pos = s.pos := rfl
@[simp] theorem takeInvalidSymbol_out (b : Byte) (s : State) : (takeInvalidSymbol b s).1.out = s.out := rfl
@[simp] theorem takeInvalidSymbol_fault (b : Byte) (s : State) : (takeInvalidSymbol b s).1.fault = true := rfl
@[simp] theorem takeInvalidSymbol_verdict (b : Byte) (s : State) : (takeInvalidSymbol b s).1.verdict = s.verdict := rfl
@[simp] theorem takeInvalidSymbol_rsp (b : Byte) (s : State) : (takeInvalidSymbol b s).1.rsp = s.rsp := rfl
@[simp] theorem takeInvalidSymbol_inputs (b : Byte) (s : State) : (takeInvalidSymbol b s).1.inputs = s.inputs := rfl
@[simp] theorem takeInvalidSymbol_response (b : Byte) (s : State) : (takeInvalidSymbol b s).2 = ⟨true, b⟩ := rfl

end Sys2Proof.Machine
end

