-- ==== Sys2Proof/Laws/Commands.lean ====
section
/-! SUPPORT. What each command does, once: one equation per command and case, and the inversion of `exec`
(spec/40_engine.md rules R87, R88; spec/41_validator.md rules R100, R101, R104). -/

namespace Sys2Proof.Machine

open Host

/-- A state after the engine has answered a symbol: counters stepped, `VERDICT` cleared, the response given. -/
def State.answered (y : Byte) (s : State) : State :=
  { s with pos := stepCounters s.cfg.A s.pos, verdict := .none, rsp := some ⟨false, y⟩ }

/-- A state after `InvalidSymbol(b)` has been taken. -/
def State.terminated (b : Byte) (s : State) : State :=
  { s with pos := stepCounters s.cfg.A s.pos, verdict := .none, fault := true, rsp := some ⟨true, b⟩ }

theorem exec_init (g : Byte) (s : State) :
    exec (.init g) s =
      .next { s with pos := s.cfg.start, out := [], fault := false, verdict := .none, rsp := some ⟨false, 0x00⟩ } :=
  rfl

theorem exec_finish (g : Byte) (s : State) :
    exec (.finish g) s = .next { s with verdict := verdictOf s, rsp := some ⟨s.fault, (verdictOf s).byte⟩ } :=
  rfl

theorem exec_feed_terminated {s : State} (h : s.fault = true) (sym : Byte) :
    exec (.feed sym) s = .next { s with rsp := some ⟨true, sym⟩ } := by
  simp [exec, execFeed, h, State.answerTerminated, State.respond]

theorem exec_xform_terminated {s : State} (h : s.fault = true) (sym : Byte) :
    exec (.xform sym) s = .next { s with rsp := some ⟨true, sym⟩ } := by
  simp [exec, execXform, h, State.answerTerminated, State.respond]

theorem transform_symbol {s : State} {sym y : Byte}
    (h : engineResult s.cfg (stepCounters s.cfg.A s.pos) sym = .symbol y) :
    transform sym s = (s.stepRotors, ⟨false, y⟩) := by
  simp [transform, h]

theorem transform_invalid {s : State} {sym e : Byte}
    (h : engineResult s.cfg (stepCounters s.cfg.A s.pos) sym = .invalidSymbol e) :
    transform sym s = takeInvalidSymbol e s.stepRotors := by
  simp [transform, h]

theorem exec_feed_symbol {s : State} (hf : s.fault = false) {sym y : Byte}
    (h : engineResult s.cfg (stepCounters s.cfg.A s.pos) sym = .symbol y) :
    exec (.feed sym) s = .next { s.answered y with out := s.out ++ [y] } := by
  have := transform_symbol (s := s.setVerdict .none) h
  simp only [exec, execFeed, hf, Bool.false_eq_true, if_false, this]
  rfl

theorem exec_xform_symbol {s : State} (hf : s.fault = false) {sym y : Byte}
    (h : engineResult s.cfg (stepCounters s.cfg.A s.pos) sym = .symbol y) :
    exec (.xform sym) s = .next (s.answered y) := by
  have := transform_symbol (s := s.setVerdict .none) h
  simp only [exec, execXform, hf, Bool.false_eq_true, if_false, this]
  rfl

theorem exec_feed_invalid {s : State} (hf : s.fault = false) {sym e : Byte}
    (h : engineResult s.cfg (stepCounters s.cfg.A s.pos) sym = .invalidSymbol e) :
    exec (.feed sym) s = .next (s.terminated e) := by
  have := transform_invalid (s := s.setVerdict .none) h
  simp only [exec, execFeed, hf, Bool.false_eq_true, if_false, this]
  rfl

theorem exec_xform_invalid {s : State} (hf : s.fault = false) {sym e : Byte}
    (h : engineResult s.cfg (stepCounters s.cfg.A s.pos) sym = .invalidSymbol e) :
    exec (.xform sym) s = .next (s.terminated e) := by
  have := transform_invalid (s := s.setVerdict .none) h
  simp only [exec, execXform, hf, Bool.false_eq_true, if_false, this]
  rfl

/-- Everything a command can do: the case it is, with its guards, and the state it leaves. -/
inductive ExecCase (s : State) : Instr → State → Prop where
  | init (g : Byte) :
    ExecCase s (.init g)
      { s with pos := s.cfg.start, out := [], fault := false, verdict := .none, rsp := some ⟨false, 0x00⟩ }
  | finish (g : Byte) :
    ExecCase s (.finish g) { s with verdict := verdictOf s, rsp := some ⟨s.fault, (verdictOf s).byte⟩ }
  | feedTerminated (sym : Byte) (hf : s.fault = true) : ExecCase s (.feed sym) { s with rsp := some ⟨true, sym⟩ }
  | xformTerminated (sym : Byte) (hf : s.fault = true) : ExecCase s (.xform sym) { s with rsp := some ⟨true, sym⟩ }
  | feedSymbol (sym y : Byte) (hf : s.fault = false)
      (he : engineResult s.cfg (stepCounters s.cfg.A s.pos) sym = .symbol y) :
    ExecCase s (.feed sym) { s.answered y with out := s.out ++ [y] }
  | xformSymbol (sym y : Byte) (hf : s.fault = false)
      (he : engineResult s.cfg (stepCounters s.cfg.A s.pos) sym = .symbol y) :
    ExecCase s (.xform sym) (s.answered y)
  | feedInvalid (sym : Byte) (hf : s.fault = false) (hp : s.cfg.invalidPolicy = .fault)
      (hb : s.cfg.A ≤ sym.toNat) : ExecCase s (.feed sym) (s.terminated sym)
  | xformInvalid (sym : Byte) (hf : s.fault = false) (hp : s.cfg.invalidPolicy = .fault)
      (hb : s.cfg.A ≤ sym.toNat) : ExecCase s (.xform sym) (s.terminated sym)

/-- Every command, in every state, completes, in one of the cases of `ExecCase` (rules R18, R131). -/
theorem exec_total (i : Instr) (s : State) : ∃ s', exec i s = .next s' ∧ ExecCase s i s' := by
  cases i with
  | init g => exact ⟨_, exec_init g s, .init g⟩
  | finish g => exact ⟨_, exec_finish g s, .finish g⟩
  | feed sym =>
    cases hf : s.fault with
    | true => exact ⟨_, exec_feed_terminated hf sym, .feedTerminated sym hf⟩
    | false =>
      obtain ⟨_, he⟩ | ⟨_, _, he⟩ | ⟨hb, hp, he⟩ := engineResult_cases s.cfg (stepCounters s.cfg.A s.pos) sym
      · exact ⟨_, exec_feed_symbol hf he, .feedSymbol sym _ hf he⟩
      · exact ⟨_, exec_feed_symbol hf he, .feedSymbol sym _ hf he⟩
      · exact ⟨_, exec_feed_invalid hf he, .feedInvalid sym hf hp hb⟩
  | xform sym =>
    cases hf : s.fault with
    | true => exact ⟨_, exec_xform_terminated hf sym, .xformTerminated sym hf⟩
    | false =>
      obtain ⟨_, he⟩ | ⟨_, _, he⟩ | ⟨hb, hp, he⟩ := engineResult_cases s.cfg (stepCounters s.cfg.A s.pos) sym
      · exact ⟨_, exec_xform_symbol hf he, .xformSymbol sym _ hf he⟩
      · exact ⟨_, exec_xform_symbol hf he, .xformSymbol sym _ hf he⟩
      · exact ⟨_, exec_xform_invalid hf he, .xformInvalid sym hf hp hb⟩

/-- The inversion of `exec`: proofs about an executed command split this and never unfold `exec`. -/
theorem exec_cases {i : Instr} {s s' : State} (h : exec i s = .next s') : ExecCase s i s' := by
  obtain ⟨t, ht, hc⟩ := exec_total i s
  rw [ht] at h
  cases h
  exact hc

@[simp] theorem exec_cfg {i : Instr} {s s' : State} (h : exec i s = .next s') : s'.cfg = s.cfg := by
  cases exec_cases h <;> rfl

@[simp] theorem exec_inputs {i : Instr} {s s' : State} (h : exec i s = .next s') : s'.inputs = s.inputs := by
  cases exec_cases h <;> rfl

/-- Every command answers (rule R63). -/
theorem exec_rsp {i : Instr} {s s' : State} (h : exec i s = .next s') : s'.rsp ≠ none := by
  cases exec_cases h <;> simp [State.answered, State.terminated]

/-- A command does not look at the ports: with other inputs to come, or another response before, it does the same. -/
theorem exec_ports {i : Instr} {s s' : State} (h : exec i s = .next s') (inputs : List PortInput)
    (rsp : Option Response) :
    exec i { s with inputs := inputs, rsp := rsp } = .next { s' with inputs := inputs } := by
  cases exec_cases h with
  | init g => rfl
  | finish g => rfl
  | feedTerminated sym hf => exact exec_feed_terminated (s := { s with inputs := inputs, rsp := rsp }) hf sym
  | xformTerminated sym hf => exact exec_xform_terminated (s := { s with inputs := inputs, rsp := rsp }) hf sym
  | feedSymbol sym y hf he => exact exec_feed_symbol (s := { s with inputs := inputs, rsp := rsp }) hf he
  | xformSymbol sym y hf he => exact exec_xform_symbol (s := { s with inputs := inputs, rsp := rsp }) hf he
  | feedInvalid sym hf hp hb =>
    exact exec_feed_invalid (s := { s with inputs := inputs, rsp := rsp }) hf (engineResult_fault hb hp _)
  | xformInvalid sym hf hp hb =>
    exact exec_xform_invalid (s := { s with inputs := inputs, rsp := rsp }) hf (engineResult_fault hb hp _)

/-- An engine answer under the FAULT policy lies in the alphabet (rule R28, I4). -/
theorem engineResult_symbol_lt {c : Config} (h : Valid c) (hp : c.invalidPolicy = .fault) {pos : List Nat}
    {sym y : Byte} (he : engineResult c pos sym = .symbol y) : y.toNat < c.A := by
  obtain ⟨hb, e⟩ | ⟨_, e, _⟩ | ⟨_, _, e⟩ := engineResult_cases c pos sym
  · rw [e] at he
    cases he
    have := subst_lt h pos hb
    rwa [symbolByte_toNat (by have := h.A_le; omega)]
  · rw [hp] at e; cases e
  · rw [e] at he; cases he

end Sys2Proof.Machine
end

