-- ==== Sys2Proof/Laws/Encoding.lean ====
section
/-! SUPPORT. The fields of a command word (spec/30_encoding.md rules R60, R65): the decoder undoes the encoder and the
encoder the decoder. -/

namespace Sys2Proof

@[simp] theorem opField_cmdWord (op : BitVec 2) (sym : Byte) : opField (cmdWord op sym) = op := by
  apply BitVec.eq_of_getLsbD_eq
  intro k hk
  simp only [opField, cmdWord, BitVec.getLsbD_extractLsb', BitVec.getLsbD_append]
  simp [hk]

@[simp] theorem symField_cmdWord (op : BitVec 2) (sym : Byte) : symField (cmdWord op sym) = sym := by
  apply BitVec.eq_of_getLsbD_eq
  intro k hk
  simp only [symField, cmdWord, BitVec.getLsbD_extractLsb', BitVec.getLsbD_append]
  simp [hk]

@[simp] theorem cmdWord_fields (w : CmdWord) : cmdWord (opField w) (symField w) = w := by
  apply BitVec.eq_of_getLsbD_eq
  intro k hk
  simp only [cmdWord, opField, symField, BitVec.getLsbD_append, BitVec.getLsbD_extractLsb']
  by_cases h : k < 8
  · simp [h]
  · have : k - 8 < 2 := by omega
    have e : 8 + (k - 8) = k := by omega
    simp [h, this, e]

theorem decode_cmdWord (op : BitVec 2) (sym : Byte) :
    decode (cmdWord op sym) =
      if op = 0b00#2 then .init sym else if op = 0b01#2 then .feed sym else if op = 0b10#2 then .xform sym
      else .finish sym := by
  simp [decode]

theorem decode_encode (i : Instr) : decode (encode i) = i := by
  cases i <;> simp [encode, decode_cmdWord]

/-- What `op` can be. -/
theorem op_cases (op : BitVec 2) : op = 0b00#2 ∨ op = 0b01#2 ∨ op = 0b10#2 ∨ op = 0b11#2 := by
  revert op
  decide

theorem encode_decode (w : CmdWord) : encode (decode w) = w := by
  have hw := cmdWord_fields w
  generalize opField w = op at hw
  generalize symField w = sym at hw
  subst hw
  rcases op_cases op with h | h | h | h <;> subst h <;> simp [decode_cmdWord, encode]

end Sys2Proof
end

