-- ==== Sys2Proof/Laws/Step.lean ====
section
/-! SUPPORT. What one step does, once, and that the invariants of spec/10_state.md rule R28 are kept by each thing a
step can do. -/

namespace Sys2Proof.Machine

open Host

theorem step_nothing {s : State} (hw : s.cfg.wellFormed = true) (h : s.inputs = []) : step s = .next s.idle := by
  simp [step, hw, h]

theorem step_port {s : State} (hw : s.cfg.wellFormed = true) {p : PortInput} {rest : List PortInput}
    (h : s.inputs = p :: rest) : step s = servePort p { s with inputs := rest } := by
  simp [step, hw, h]

theorem step_refused {s : State} (hw : s.cfg.wellFormed = false) : step s = .refused .illFormedConfig := by
  simp [step, hw]

/-- Everything a step can do, with its guards: stay idle, reset, or execute one command. -/
inductive StepCase (s : State) : State → Prop where
  | quiet (h : s.inputs = []) : StepCase s s.idle
  | pause (rest : List PortInput) (h : s.inputs = ⟨none, false⟩ :: rest) :
    StepCase s { s.idle with inputs := rest }
  | reset (cmd : Option CmdWord) (rest : List PortInput) (h : s.inputs = ⟨cmd, true⟩ :: rest) :
    StepCase s { State.resetOf s.cfg with inputs := rest }
  | command (w : CmdWord) (rest : List PortInput) (s' : State) (h : s.inputs = ⟨some w, false⟩ :: rest)
      (hx : exec (decode w) { s with inputs := rest } = .next s') : StepCase s s'

theorem step_total {s : State} (hw : s.cfg.wellFormed = true) : ∃ s', step s = .next s' ∧ StepCase s s' := by
  cases hin : s.inputs with
  | nil => exact ⟨_, step_nothing hw hin, .quiet hin⟩
  | cons p rest =>
    rw [step_port hw hin]
    obtain ⟨cmd, reset⟩ := p
    cases reset with
    | true => exact ⟨_, rfl, .reset cmd rest hin⟩
    | false =>
      cases cmd with
      | none => exact ⟨_, rfl, .pause rest hin⟩
      | some w =>
        obtain ⟨s', hx, _⟩ := exec_total (decode w) { s with inputs := rest }
        exact ⟨s', hx, .command w rest s' hin hx⟩

theorem step_wellFormed {s s' : State} (h : step s = .next s') : s.cfg.wellFormed = true := by
  cases hw : s.cfg.wellFormed with
  | true => rfl
  | false => rw [step_refused hw] at h; cases h

/-- The inversion of `step`. -/
theorem step_cases {s s' : State} (h : step s = .next s') : StepCase s s' := by
  obtain ⟨t, ht, hc⟩ := step_total (step_wellFormed h)
  rw [ht] at h
  cases h
  exact hc

theorem step_cfg {s s' : State} (h : step s = .next s') : s'.cfg = s.cfg := by
  cases step_cases h with
  | quiet _ => rfl
  | pause rest _ => rfl
  | reset cmd rest _ => rfl
  | command w rest _ _ hx => simpa using exec_cfg hx

/-- A word of the port placed by `withFetchWord` stands in front of the host's inputs. -/
theorem withFetchWord_eq (s : State) (w : CmdWord) :
    s.withFetchWord 16 w.toNat = { s with inputs := ⟨some w, false⟩ :: s.inputs } := by
  have h : w.toNat < 1024 := w.isLt
  have hm : w.toNat % 2 ^ 16 = w.toNat := Nat.mod_eq_of_lt (by omega)
  rw [State.withFetchWord, hm, if_pos h, BitVec.ofNat_toNat, BitVec.setWidth_eq]

/-- A command placed by `withFetchWord` is what the next step executes. -/
theorem step_withFetchWord {s : State} (hw : s.cfg.wellFormed = true) (i : Instr) :
    step (s.withFetchWord 16 (encode i).toNat) = exec i s := by
  rw [withFetchWord_eq]
  refine (step_port (s := { s with inputs := ⟨some (encode i), false⟩ :: s.inputs }) hw rfl).trans ?_
  exact congrArg (exec · s) (decode_encode i)

end Sys2Proof.Machine
end

