-- ==== Sys2Proof/Laws/Invariant.lean ====
section
/-! SUPPORT. The invariants of spec/10_state.md rule R28 and the executed command: each case of `ExecCase` keeps them. -/

namespace Sys2Proof.Machine

theorem Inv.valid {s : State} (h : Inv s) : Valid s.cfg := (wellFormed_iff _).1 h.configOk

theorem Inv.posOk {s : State} (h : Inv s) : PosOk s.cfg s.pos := ⟨h.counterCount, h.counterRange⟩

/-- The invariants do not speak of the ports. -/
theorem Inv.ports {s : State} (h : Inv s) (inputs : List PortInput) (rsp : Option Response) :
    Inv { s with inputs := inputs, rsp := rsp } :=
  ⟨h.configOk, h.counterCount, h.counterRange, h.verdictCurrent, h.noFaultUnderPass, h.noFaultFullAlphabet,
    h.outInAlphabet⟩

theorem inv_resetOf {c : Config} (hw : c.wellFormed = true) : Inv (State.resetOf c) where
  configOk := hw
  counterCount := ((wellFormed_iff c).1 hw).start_length
  counterRange := ((wellFormed_iff c).1 hw).start_range
  verdictCurrent h := absurd rfl h
  noFaultUnderPass _ := rfl
  noFaultFullAlphabet _ := rfl
  outInAlphabet _ y hy := by simp at hy

/-- An engine answer keeps the invariants. -/
theorem Inv.answered {s : State} (h : Inv s) (y : Byte) : Inv (s.answered y) where
  configOk := h.configOk
  counterCount := h.posOk.step.length
  counterRange := h.posOk.step.range
  verdictCurrent hv := absurd rfl hv
  noFaultUnderPass := h.noFaultUnderPass
  noFaultFullAlphabet := h.noFaultFullAlphabet
  outInAlphabet := h.outInAlphabet

/-- So does appending a byte that the FAULT policy lets through, while `VERDICT` is clear. -/
theorem Inv.append {s : State} (h : Inv s) {y : Byte} (hv : s.verdict = .none)
    (hy : s.cfg.invalidPolicy = .fault → y.toNat < s.cfg.A) : Inv { s with out := s.out ++ [y] } where
  configOk := h.configOk
  counterCount := h.counterCount
  counterRange := h.counterRange
  verdictCurrent hn := absurd hv hn
  noFaultUnderPass := h.noFaultUnderPass
  noFaultFullAlphabet := h.noFaultFullAlphabet
  outInAlphabet hp z hz := by
    rcases List.mem_append.1 hz with hz | hz
    · exact h.outInAlphabet hp z hz
    · rw [List.mem_singleton.1 hz]; exact hy hp

/-- And taking `InvalidSymbol`, which only a byte outside the alphabet under FAULT can do. -/
theorem Inv.terminated {s : State} (h : Inv s) {b : Byte} (hp : s.cfg.invalidPolicy = .fault)
    (hb : s.cfg.A ≤ b.toNat) : Inv (s.terminated b) where
  configOk := h.configOk
  counterCount := h.posOk.step.length
  counterRange := h.posOk.step.range
  verdictCurrent hv := absurd rfl hv
  noFaultUnderPass hq := by
    have hq' : s.cfg.invalidPolicy = .pass := hq
    rw [hp] at hq'; cases hq'
  noFaultFullAlphabet hA := by
    have hA' : s.cfg.A = 256 := hA
    have := b.isLt
    omega
  outInAlphabet := h.outInAlphabet

/-- `FINISH` keeps them: it writes the verdict the invariant asks for. -/
theorem Inv.finished {s : State} (h : Inv s) (r : Option Response) :
    Inv { s with verdict := verdictOf s, rsp := r } where
  configOk := h.configOk
  counterCount := h.counterCount
  counterRange := h.counterRange
  verdictCurrent _ := rfl
  noFaultUnderPass := h.noFaultUnderPass
  noFaultFullAlphabet := h.noFaultFullAlphabet
  outInAlphabet := h.outInAlphabet

/-- Every command keeps the invariants. -/
theorem exec_inv {i : Instr} {s s' : State} (hi : Inv s) (h : exec i s = .next s') : Inv s' := by
  cases exec_cases h with
  | init g => exact (inv_resetOf hi.configOk).ports s.inputs _
  | finish g => exact hi.finished _
  | feedTerminated sym hf => exact hi.ports _ _
  | xformTerminated sym hf => exact hi.ports _ _
  | feedSymbol sym y hf he => exact (hi.answered y).append rfl fun hp => engineResult_symbol_lt hi.valid hp he
  | xformSymbol sym y hf he => exact hi.answered y
  | feedInvalid sym hf hp hb => exact hi.terminated hp hb
  | xformInvalid sym hf hp hb => exact hi.terminated hp hb

end Sys2Proof.Machine
end

