-- ==== Sys2Proof/Laws/PerInstr.lean ====
section
/-! SUPPORT. Statements for all commands, one lemma per constructor of `Instr`. -/

namespace Sys2Proof.Laws

/-- The word of a command decodes to it, and its opcode row of spec/30_encoding.md rule R65 is the one with its
mnemonic. -/
def Encoding.Statement (i : Instr) : Prop :=
  decode (encode i) = i ∧ (opcodeTable.filter (fun r => r.selects (encode i))).map OpcodeRow.mnemonic = [i.mnemonic]

theorem Encoding.init (ignored : Byte) : Encoding.Statement (.init ignored) :=
  ⟨decode_encode _, by revert ignored; decide⟩

theorem Encoding.feed (sym : Byte) : Encoding.Statement (.feed sym) := ⟨decode_encode _, by revert sym; decide⟩

theorem Encoding.xform (sym : Byte) : Encoding.Statement (.xform sym) := ⟨decode_encode _, by revert sym; decide⟩

theorem Encoding.finish (ignored : Byte) : Encoding.Statement (.finish ignored) :=
  ⟨decode_encode _, by revert ignored; decide⟩

end Sys2Proof.Laws
end

