-- ==== Sys2Proof/Laws/Realisation.lean ====
section
/-! SUPPORT. The comparator of spec/10_state.md rule R23 and the buffer it stands for. -/

namespace Sys2Proof.Machine

@[simp] theorem ofOut_nil (expected : List Byte) : Comparator.ofOut expected [] = Comparator.empty := rfl

theorem ofOut_append (expected out : List Byte) (y : Byte) :
    Comparator.ofOut expected (out ++ [y]) = (Comparator.ofOut expected out).append expected y := by
  simp [Comparator.ofOut]

theorem ofOut_count (expected out : List Byte) :
    (Comparator.ofOut expected out).count = min out.length (expected.length + 1) := by
  induction out using List.reverseRecOn with
  | nil => simp [Comparator.empty]
  | append_singleton out y ih =>
    rw [ofOut_append]
    simp only [Comparator.append, ih, List.length_append, List.length_singleton]
    omega

end Sys2Proof.Machine
end

