-- ==== Sys2Proof/Laws/Runs.lean ====
section
/-! SUPPORT. Command sequences (spec/00_scope.md rule R19; spec/41_validator.md rules R102, R107): lists of commands
composed, and what feeding a list of symbols leaves. -/

namespace Sys2Proof.Machine

open Host

theorem execAll_cons {i : Instr} {s s' : State} (h : exec i s = .next s') (is : List Instr) :
    execAll (i :: is) s = execAll is s' := by
  simp [execAll, h]

theorem execAll_append {is : List Instr} {s s' : State} (h : execAll is s = .next s') (js : List Instr) :
    execAll (is ++ js) s = execAll js s' := by
  induction is generalizing s with
  | nil => cases h; rfl
  | cons i is ih =>
    obtain ⟨t, ht, _⟩ := exec_total i s
    rw [execAll_cons ht] at h
    rw [List.cons_append, execAll_cons ht]
    exact ih h

theorem execAll_total (is : List Instr) (s : State) : ∃ s', execAll is s = .next s' ∧ s'.cfg = s.cfg ∧
    s'.inputs = s.inputs := by
  induction is generalizing s with
  | nil => exact ⟨s, rfl, rfl, rfl⟩
  | cons i is ih =>
    obtain ⟨t, ht, _⟩ := exec_total i s
    obtain ⟨u, hu, hc, hi⟩ := ih t
    exact ⟨u, (execAll_cons ht is).trans hu, hc.trans (exec_cfg ht), hi.trans (exec_inputs ht)⟩

/-- One step of a run, then the rest of it. -/
theorem run_succ {s s' : State} (h : step s = .next s') (n : Nat) :
    Sys2Proof.core.run (n + 1) s = Sys2Proof.core.run n s' := by
  simp only [Core.run]
  rw [show Sys2Proof.core.step s = .next s' from h]

/-- The port runs what `execAll` runs, and leaves the inputs that stand behind the commands. -/
theorem run_driving {s : State} (hw : s.cfg.wellFormed = true) (is : List Instr) (rest : List PortInput) :
    Sys2Proof.core.run is.length { s with inputs := is.map issue ++ rest } = execAll is { s with inputs := rest } := by
  induction is generalizing s with
  | nil => rfl
  | cons i is ih =>
    have hstep : step { s with inputs := (i :: is).map issue ++ rest } =
        exec i { s with inputs := is.map issue ++ rest } := by
      refine (step_port (s := { s with inputs := (i :: is).map issue ++ rest }) hw rfl).trans ?_
      exact congrArg (exec · _) (decode_encode i)
    obtain ⟨t, ht, _⟩ := exec_total i { s with inputs := rest }
    have ht' := exec_ports ht (is.map issue ++ rest) s.rsp
    rw [execAll_cons ht]
    have hw' : t.cfg.wellFormed = true := by rw [exec_cfg ht]; exact hw
    have hin : t.inputs = rest := exec_inputs ht
    have := ih (s := t) hw'
    rw [show ({ t with inputs := rest } : State) = t by rw [← hin]] at this
    rw [← this]
    exact run_succ (s' := { t with inputs := is.map issue ++ rest }) (hstep.trans ht') is.length

theorem run_withCommands {s : State} (hw : s.cfg.wellFormed = true) (is : List Instr) :
    Sys2Proof.core.run is.length (s.withCommands is) = execAll is { s with inputs := [] } := by
  have := run_driving hw is []
  rwa [List.append_nil] at this

/-- No byte of the input raises `InvalidSymbol`. -/
def Accepted (c : Config) (b : List Byte) : Prop := c.invalidPolicy = .fault → ∀ x ∈ b, inDomain c x = true

/-- Where a run stands when the bytes of `fed` have been fed since the fresh start (rules R101, R102, R121): either
none of them raised, the counters have made one step a byte and the buffer holds the outputs; or the run is
terminated. -/
structure RunState (c : Config) (fed : List Byte) (s : State) : Prop where
  cfg     : s.cfg = c
  running : Accepted c fed → s.fault = false ∧ s.pos = stepTimes c.A fed.length c.start ∧ s.out = outputsOf c fed
  ended   : ¬ Accepted c fed → s.fault = true

theorem RunState.init (s : State) (g : Byte) : ∃ s', exec (.init g) s = .next s' ∧ RunState s.cfg [] s' :=
  ⟨_, exec_init g s, rfl, fun _ => ⟨rfl, rfl, rfl⟩, fun h => absurd (fun _ _ hx => by simp at hx) h⟩

theorem outputsOf_append (c : Config) (b : List Byte) (x : Byte) :
    outputsOf c (b ++ [x]) = outputsOf c b ++ [outputAt c b.length x] := by
  simp [outputsOf, List.mapIdx_append]

/-- What the engine answers at the position of rule R107 is `y_k`. -/
theorem engineResult_outputAt {c : Config} {k : Nat} {x : Byte}
    (h : c.invalidPolicy = .fault → inDomain c x = true) :
    engineResult c (stepTimes c.A (k + 1) c.start) x = .symbol (outputAt c k x) := by
  cases hx : inDomain c x with
  | true => simp [engineResult, outputAt, positionAt, hx]
  | false =>
    cases hp : c.invalidPolicy with
    | pass => simp [engineResult, outputAt, hx, hp]
    | fault => exact absurd (h hp) (by simp [hx])

/-- One more byte fed (rule R101). -/
theorem RunState.feed {c : Config} {fed : List Byte} {s : State} (h : RunState c fed s) (x : Byte) :
    ∃ s', exec (.feed x) s = .next s' ∧ RunState c (fed ++ [x]) s' := by
  by_cases ha : Accepted c fed
  · obtain ⟨hf, hpos, hout⟩ := h.running ha
    have hstep : stepCounters s.cfg.A s.pos = stepTimes c.A (fed.length + 1) c.start := by
      rw [hpos, h.cfg, stepTimes_succ]
    by_cases hx : c.invalidPolicy = .fault → inDomain c x = true
    · have he := engineResult_outputAt (k := fed.length) hx
      rw [← hstep, ← h.cfg] at he
      refine ⟨_, exec_feed_symbol hf he, h.cfg, fun _ => ⟨hf, ?_, ?_⟩, fun hn => absurd ?_ hn⟩
      · show stepCounters s.cfg.A s.pos = stepTimes c.A (fed ++ [x]).length c.start
        simpa using hstep
      · simp [hout, outputsOf_append, h.cfg]
      · intro hp y hy
        rcases List.mem_append.1 hy with hy | hy
        · exact ha hp y hy
        · rw [List.mem_singleton.1 hy]; exact hx hp
    · rw [Classical.not_imp, Bool.not_eq_true] at hx
      have he := engineResult_fault (pos := stepCounters s.cfg.A s.pos) ((inDomain_false_iff c x).1 hx.2) hx.1
      rw [← h.cfg] at he
      refine ⟨_, exec_feed_invalid hf he, h.cfg, fun hn => absurd (hn hx.1 x (by simp)) (by simp [hx.2]), fun _ => rfl⟩
  · have hf := h.ended ha
    have hn : ¬ Accepted c (fed ++ [x]) := fun hn => ha fun hp y hy => hn hp y (by simp [hy])
    exact ⟨_, exec_feed_terminated hf x, h.cfg, fun h' => absurd h' hn, fun _ => hf⟩

/-- A verdict taken along the way changes nothing of the run (rule R104). -/
theorem RunState.finish {c : Config} {fed : List Byte} {s : State} (h : RunState c fed s) (g : Byte) :
    ∃ s', exec (.finish g) s = .next s' ∧ RunState c fed s' ∧ s'.verdict = verdictOf s :=
  ⟨_, exec_finish g s, ⟨h.cfg, h.running, h.ended⟩, rfl⟩

/-- The verdict function at any point of a run is `validate` of the bytes fed so far (rules R105, R107). -/
theorem RunState.verdict {c : Config} {fed : List Byte} {s : State} (h : RunState c fed s) :
    verdictOf s = validate c fed := by
  have hacc : Accepted c fed ↔ ¬ (c.invalidPolicy = .fault ∧ ∃ x ∈ fed, inDomain c x = false) := by
    simp [Accepted]
  by_cases ha : Accepted c fed
  · obtain ⟨hf, _, hout⟩ := h.running ha
    simp [verdictOf, verdictFrom, validate, hf, hout, h.cfg, if_neg (hacc.1 ha)]
  · have hn : c.invalidPolicy = .fault ∧ ∃ x ∈ fed, inDomain c x = false := by
      by_contra hc
      exact ha (hacc.2 hc)
    simp [verdictOf, verdictFrom, validate, h.ended ha, if_pos hn]

/-- A list of bytes fed. -/
theorem RunState.feeds {c : Config} {fed : List Byte} {s : State} (h : RunState c fed s) (b : List Byte) :
    ∃ s', execAll (Machine.feeds b) s = .next s' ∧ RunState c (fed ++ b) s' := by
  induction b generalizing fed s with
  | nil => exact ⟨s, rfl, by simpa using h⟩
  | cons x xs ih =>
    obtain ⟨t, ht, hr⟩ := h.feed x
    obtain ⟨u, hu, hr'⟩ := ih hr
    exact ⟨u, (execAll_cons ht _).trans hu, by simpa using hr'⟩

/-- When an input is accepted (rule R107). -/
theorem validate_accept {c : Config} {b : List Byte} :
    validate c b = .accept ↔ Accepted c b ∧ outputsOf c b = c.expected := by
  have hacc : Accepted c b ↔ ¬ (c.invalidPolicy = .fault ∧ ∃ x ∈ b, inDomain c x = false) := by
    simp [Accepted]
  unfold validate
  rw [hacc]
  split
  · simp_all
  · split <;> simp_all

/-- When it is rejected for what was collected. -/
theorem validate_reject {c : Config} {b : List Byte} (ha : Accepted c b) (h : outputsOf c b ≠ c.expected) :
    validate c b = .reject := by
  have hacc : ¬ (c.invalidPolicy = .fault ∧ ∃ x ∈ b, inDomain c x = false) := by simpa [Accepted] using ha
  unfold validate
  rw [if_neg hacc, if_neg h]

theorem outputsOf_length (c : Config) (b : List Byte) : (outputsOf c b).length = b.length := by simp [outputsOf]

theorem outputAt_toNat {c : Config} (h : Valid c) {k : Nat} {x : Byte} (hx : x.toNat < c.A) :
    (outputAt c k x).toNat = subst c (positionAt c k) x.toNat := by
  simp only [outputAt, (inDomain_iff c x).2 hx, if_true]
  have := subst_lt h (positionAt c k) hx
  exact symbolByte_toNat (by have := h.A_le; omega)

/-- An output symbol lies in the alphabet exactly when its input does. -/
theorem outputAt_lt_iff {c : Config} (h : Valid c) {k : Nat} {x : Byte} :
    (outputAt c k x).toNat < c.A ↔ x.toNat < c.A := by
  by_cases hx : x.toNat < c.A
  · rw [outputAt_toNat h hx]; simp [hx, subst_lt h _ hx]
  · simp [outputAt, (inDomain_false_iff c x).2 (by omega)]

/-- Reciprocity, symbol by symbol (rule R111 item 4). -/
theorem outputAt_outputAt {c : Config} (h : Valid c) (k : Nat) (x : Byte) :
    outputAt c k (outputAt c k x) = x := by
  by_cases hx : x.toNat < c.A
  · apply BitVec.eq_of_toNat_eq
    rw [outputAt_toNat h ((outputAt_lt_iff h).2 hx), outputAt_toNat h hx, subst_subst (pos := positionAt c k) h (h.start.stepTimes (k + 1)) hx]
  · have : outputAt c k x = x := by
      simp [outputAt, (inDomain_false_iff c x).2 (by omega)]
    rw [this, this]

theorem outputsOf_outputsOf {c : Config} (h : Valid c) (b : List Byte) : outputsOf c (outputsOf c b) = b := by
  apply List.ext_getElem
  · simp [outputsOf]
  · intro k h1 h2
    simp [outputsOf, outputAt_outputAt h]

end Sys2Proof.Machine
end

