-- ==== Sys2Proof/Laws/Spaces.lean ====
section
/-! SUPPORT. Reads by space (spec/20_memory.md rules R40, R41, R49): the read lists of the pipeline carry its values,
and a store at the end of `OUT` changes that location alone. -/

namespace Sys2Proof.Machine

/-- Two states with one configuration and one buffer read the same everywhere. -/
theorem readByte_congr {s t : State} (hc : s.cfg = t.cfg) (ho : s.out = t.out) (sp : Space) (k : Nat) :
    s.readByte sp k = t.readByte sp k := by
  cases sp <;> simp [State.readByte, State.spaceBytes, hc, ho]

/-- Every space but `OUT` is read off the configuration. -/
theorem readByte_table {s t : State} (hc : s.cfg = t.cfg) {sp : Space} (hsp : sp ≠ .out) (k : Nat) :
    s.readByte sp k = t.readByte sp k := by
  cases sp <;> simp_all [State.readByte, State.spaceBytes]

@[simp] theorem readByte_out (s : State) (k : Nat) : s.readByte .out k = s.out[k]? := rfl

theorem getElem?_isSome_eq {α : Type} (l : List α) (k : Nat) : (l[k]?).isSome = decide (k < l.length) := by
  rw [Bool.eq_iff_iff]
  simp

theorem plugRead_value (c : Config) (x : Nat) : (plugRead c x).2 = plugStage c x := by
  unfold plugRead plugStage
  cases c.plug <;> rfl

theorem forwardReads_value (c : Config) (pos : List Nat) (n x : Nat) :
    (forwardReads c pos n x).2 = forwardPass c pos n x := by
  induction n with
  | zero => rfl
  | succ n ih => simp [forwardReads, forwardPass, ih]

theorem returnReads_value (c : Config) (pos : List Nat) (n x : Nat) :
    (returnReads c pos n x).2 = returnPass c pos n x := by
  induction n generalizing x with
  | zero => rfl
  | succ n ih => simp [returnReads, returnPass, ih]

theorem substReads_value (c : Config) (pos : List Nat) (x : Nat) : (substReads c pos x).2 = subst c pos x := by
  simp [substReads, subst, plugRead_value, forwardReads_value, returnReads_value]

theorem forwardReads_spaces (c : Config) (pos : List Nat) (n x : Nat) :
    (forwardReads c pos n x).1.map Access.space = (List.range n).map Space.rotor := by
  induction n with
  | zero => rfl
  | succ n ih => simp [forwardReads, List.range_succ, ih]

theorem returnReads_spaces (c : Config) (pos : List Nat) (n x : Nat) :
    (returnReads c pos n x).1.map Access.space = (List.range n).reverse.map Space.rotorInv := by
  induction n generalizing x with
  | zero => rfl
  | succ n ih => simp only [returnReads, List.map_cons, ih, List.range_succ, List.reverse_append]; rfl

theorem plugRead_spaces (c : Config) (x : Nat) :
    (plugRead c x).1.map Access.space = if c.plugPresent then [Space.plug] else [] := by
  unfold plugRead Config.plugPresent
  cases c.plug <;> rfl

theorem forwardReads_index {c : Config} (hA : 0 < c.A) (pos : List Nat) (n x : Nat) :
    ∀ a ∈ (forwardReads c pos n x).1, a.index < c.A := by
  induction n with
  | zero => simp [forwardReads]
  | succ n ih =>
    simp only [forwardReads, List.mem_append, List.mem_singleton]
    rintro a (ha | rfl)
    · exact ih a ha
    · exact addOffset_lt hA

theorem returnReads_index {c : Config} (hA : 0 < c.A) (pos : List Nat) (n x : Nat) :
    ∀ a ∈ (returnReads c pos n x).1, a.index < c.A := by
  induction n generalizing x with
  | zero => simp [returnReads]
  | succ n ih =>
    simp only [returnReads, List.mem_cons]
    rintro a (rfl | ha)
    · exact addOffset_lt hA
    · exact ih _ a ha

theorem plugRead_index {c : Config} {x : Nat} (hx : x < c.A) : ∀ a ∈ (plugRead c x).1, a.index < c.A := by
  unfold plugRead
  cases c.plug with
  | none => simp
  | some t => simpa using hx

end Sys2Proof.Machine
end

