-- ==== Sys2Proof/Tests/Slice0.lean ====
section
/-! SUPPORT. The model's own tests: each expected value is taken from spec/95_test_vectors.md (the vector's id stands in
the comment) or worked out by hand from a rule; and for every obligation with hypotheses a state and operands that meet
them together. -/

namespace Sys2Proof.Tests

open Machine Host

/-! ## Configurations and states -/

/-- TC1, and TC1P under `PASS`. -/
def tc1 : Config := Config.documented
def tc1p : Config := { tc1 with invalidPolicy := .pass }

/-- TC2: three rotors and a plugboard. -/
def tc2 : Config where
  A                := 26
  rotor            :=
    [[5, 8, 11, 14, 17, 20, 23, 0, 3, 6, 9, 12, 15, 18, 21, 24, 1, 4, 7, 10, 13, 16, 19, 22, 25, 2],
     [11, 18, 25, 6, 13, 20, 1, 8, 15, 22, 3, 10, 17, 24, 5, 12, 19, 0, 7, 14, 21, 2, 9, 16, 23, 4],
     [9, 22, 3, 14, 25, 0, 17, 6, 11, 20, 1, 13, 24, 5, 16, 8, 19, 2, 23, 12, 4, 15, 21, 10, 7, 18]]
  refl             := [13, 20, 7, 25, 11, 18, 22, 2, 15, 24, 16, 4, 21, 0, 19, 8, 10, 23, 5, 14, 1, 12, 6, 17, 9, 3]
  reflNoFixedPoint := true
  plug             := some
    [4, 17, 2, 3, 0, 5, 6, 7, 8, 9, 10, 11, 12, 13, 14, 15, 16, 1, 18, 25, 20, 21, 22, 23, 24, 19]
  start            := [24, 25, 3]
  expected         := [17, 1, 2, 24, 0, 19]
  invalidPolicy    := .fault

/-- TC5: a reflector with a fixed point. -/
def tc5 : Config where
  A                := 3
  rotor            := [[0, 2, 1]]
  refl             := [1, 0, 2]
  reflNoFixedPoint := false
  plug             := none
  start            := [2]
  expected         := []
  invalidPolicy    := .fault

/-- TC6: the least sizes. -/
def tc6 : Config where
  A                := 1
  rotor            := [[0], [0]]
  refl             := [0]
  reflNoFixedPoint := false
  plug             := none
  start            := [0, 0]
  expected         := [0, 0]
  invalidPolicy    := .fault

/-- One rotor over all 256 bytes; its tables make no difference to what it is used for. -/
def full : Config where
  A                := 256
  rotor            := [(List.range 256).map (BitVec.ofNat 8)]
  refl             := (List.range 256).map (BitVec.ofNat 8)
  reflNoFixedPoint := false
  plug             := none
  start            := [255]
  expected         := []
  invalidPolicy    := .fault

/-- A block in the middle of a run, not faulted, before any verdict; and one whose run is terminated. -/
def running (c : Config) (pos : List Nat) (out : List Byte) : State := { State.resetOf c with pos := pos, out := out }
def ended (c : Config) (pos : List Nat) (out : List Byte) : State := { running c pos out with fault := true }

/-- The next state of an outcome, where it has one. -/
def nextOf (o : Outcome State Fault Refusal) : Option State :=
  match o with
  | .next s    => some s
  | .fault _   => none
  | .refused _ => none

theorem eq_next_of_nextOf {o : Outcome State Fault Refusal} {s : State} (h : nextOf o = some s) : o = .next s := by
  cases o <;> simp_all [nextOf]

/-- What a test looks at: counters, buffer, `STATUS` and `RSP`. -/
def seen (o : Outcome State Fault Refusal) : Option (List Nat × List Byte × StatusWord × Option RspWord) :=
  (nextOf o).map fun s => (s.pos, s.out, statusWord s, s.rsp.map Response.word)

/-! ## Well-formedness: one ill-formed term for each check -/

theorem test_configurations_wellFormed :
    [tc1, tc1p, tc2, tc5, tc6].all Config.wellFormed = true := by decide

theorem test_full_wellFormed : full.wellFormed = true := by decide +kernel

theorem test_no_rotor_refused :
    ({ tc1 with rotor := [], start := [] } : Config).rotorCountOk = false ∧
    ({ tc1 with rotor := [], start := [] } : Config).wellFormed = false := by decide

theorem test_empty_alphabet_refused :
    ({ tc1 with A := 0 } : Config).alphabetOk = false ∧ ({ tc1 with A := 0 } : Config).wellFormed = false := by decide

theorem test_large_alphabet_refused :
    ({ tc1 with A := 257 } : Config).alphabetOk = false ∧ ({ tc1 with A := 257 } : Config).wellFormed = false := by
  decide

theorem test_rotor_with_repeat_refused :
    ({ tc1 with rotor := [[4, 2, 5, 0, 3, 1], [1, 5, 3, 0, 2, 2]] } : Config).rotorsOk = false ∧
    ({ tc1 with rotor := [[4, 2, 5, 0, 3, 1], [1, 5, 3, 0, 2, 2]] } : Config).wellFormed = false := by decide

theorem test_rotor_out_of_alphabet_refused :
    ({ tc1 with rotor := [[4, 2, 5, 0, 3, 1], [1, 5, 3, 0, 2, 6]] } : Config).wellFormed = false := by decide

theorem test_reflector_not_involutive_refused :
    ({ tc1 with refl := [1, 2, 0, 4, 5, 3] } : Config).reflOk = false ∧
    ({ tc1 with refl := [1, 2, 0, 4, 5, 3] } : Config).wellFormed = false := by decide

theorem test_reflector_fixed_point_refused :
    ({ tc5 with reflNoFixedPoint := true } : Config).reflFixedPointOk = false ∧
    ({ tc5 with reflNoFixedPoint := true } : Config).wellFormed = false := by decide

theorem test_plugboard_not_involutive_refused :
    ({ tc1 with plug := some [1, 2, 0, 3, 4, 5] } : Config).plugOk = false ∧
    ({ tc1 with plug := some [1, 2, 0, 3, 4, 5] } : Config).wellFormed = false := by decide

theorem test_start_out_of_range_refused :
    ({ tc1 with start := [4, 6] } : Config).startOk = false ∧ ({ tc1 with start := [4, 6] } : Config).wellFormed = false := by
  decide

theorem test_start_short_refused : ({ tc1 with start := [4] } : Config).wellFormed = false := by decide

theorem test_step_refuses_ill_formed : step (State.resetOf { tc1 with A := 0 }) = .refused .illFormedConfig := by rfl

theorem test_noncanonical_commands :
    (Instr.init 0x5A).wellFormed = false ∧ (Instr.finish 0x01).wellFormed = false ∧ (Instr.init 0).wellFormed = true := by
  decide

/-! ## Decoding: words written out from rule R65 (V7.1 to V7.10) -/

theorem test_decode_init : decode 0b0000000000#10 = .init 0x00 ∧ decode 0b0011111111#10 = .init 0xFF := by decide
theorem test_decode_feed : decode 0b0101000101#10 = .feed 0x45 ∧ decode 0b0111111111#10 = .feed 0xFF := by decide
theorem test_decode_xform : decode 0b1000000000#10 = .xform 0x00 ∧ decode 0b1010100101#10 = .xform 0xA5 := by decide
theorem test_decode_finish : decode 0b1100000000#10 = .finish 0x00 ∧ decode 0b1111000011#10 = .finish 0xC3 := by decide

theorem test_decodeTableWord :
    decodeTableWord 16 0x145 = some (.feed 0x45) ∧ decodeTableWord 10 0x300 = some (.finish 0) ∧
    decodeTableWord 16 0x400 = none ∧ decodeNumber 1024 = .error .moreThanTenBits := by decide

/-! ## The internal operations -/

/-- V2.2, V2.3, V2.4, V2.6, V2.10. -/
theorem test_step_carries :
    stepCounters 6 [5, 0] = [0, 1] ∧ stepCounters 6 [5, 5] = [0, 0] ∧ stepCounters 6 [0, 5] = [1, 5] ∧
    stepCounters 26 [25, 25, 3] = [0, 0, 4] ∧ stepCounters 1 [0, 0] = [0, 0] := by decide

/-- V3.2 and V3.4, whole tables of TC1. -/
theorem test_subst_tables :
    (List.range 6).map (subst tc1 [5, 0]) = [2, 3, 0, 1, 5, 4] ∧
    (List.range 6).map (subst tc1 [1, 1]) = [3, 2, 1, 0, 5, 4] := by decide

/-- V3.24 and V3.26, with plugboard. -/
theorem test_subst_plugboard : subst tc2 [25, 25, 3] 4 = 17 ∧ subst tc2 [4, 0, 4] 0 = 19 := by decide

/-- The stages of V3.24 up to the reflector, and the indices it reads, by hand in spec/95_test_vectors.md. -/
theorem test_reads_of_a_trace :
    (substReads tc2 [25, 25, 3] 4).1.map Access.index = [4, 25, 2, 3, 11, 7, 20, 5, 1] := by decide

/-! ## The commands, one step each -/

/-- R100's worked example. -/
theorem test_init :
    seen (exec (.init 0xFF) { running tc1 [0, 2] [2, 5, 1, 1, 2, 4, 4, 4] with verdict := .accept }) =
      some ([4, 0], [], 0b000#3, some 0x000#9) := by decide

/-- R101's worked example (V5.1, second symbol). -/
theorem test_feed :
    seen (exec (.feed 1) (running tc1 [5, 0] [2])) = some ([0, 1], [2, 5], 0b000#3, some 0x005#9) := by decide

/-- P3 row 3. -/
theorem test_feed_invalid :
    seen (exec (.feed 6) (running tc1 [5, 0] [2])) = some ([0, 1], [2], 0b100#3, some 0x106#9) := by decide

/-- V4.9. -/
theorem test_xform :
    seen (exec (.xform 0) { running tc1 [0, 2] [2, 5, 1, 1, 2, 4, 4, 4] with verdict := .accept }) =
      some ([1, 2], [2, 5, 1, 1, 2, 4, 4, 4], 0b000#3, some 0x004#9) := by decide

/-- V4.8. -/
theorem test_xform_terminated :
    seen (exec (.xform 0) { ended tc1 [5, 0] [] with verdict := .faulted }) =
      some ([5, 0], [], 0b111#3, some 0x100#9) := by decide

/-- P1 row 10. -/
theorem test_finish_accept :
    seen (exec (.finish 0) (running tc1 [0, 2] [2, 5, 1, 1, 2, 4, 4, 4])) =
      some ([0, 2], [2, 5, 1, 1, 2, 4, 4, 4], 0b001#3, some 0x001#9) := by decide

/-- P3 row 6. -/
theorem test_finish_faulted :
    seen (exec (.finish 0) (ended tc1 [0, 1] [2])) = some ([0, 1], [2], 0b111#3, some 0x103#9) := by decide

/-- P1 row 2, through the port: the first command after reset. -/
theorem test_step_after_reset :
    seen (step (State.reset.withFetchWord 16 0x100)) = some ([5, 0], [2], 0b000#3, some 0x002#9) := by decide

/-- `RESET` beats a command standing on `CMD` (rules R125, R140). -/
theorem test_reset_wins :
    seen (step { ended tc1 [0, 1] [2] with inputs := [⟨some 0x145#10, true⟩] }) =
      some ([4, 0], [], 0b000#3, none) := by decide

/-! ## Assembler (rules R67, R68) -/

theorem test_assemble_operands :
    assembleLine "FEED 0x45        ; command word 0x145".toList = .ok [.feed 0x45] ∧
    assembleLine "FEED 69          ; the same".toList = .ok [.feed 0x45] ∧
    assembleLine "FEED 'E'         ; the same".toList = .ok [.feed 0x45] ∧
    assembleLine "FEED 256".toList = .error .operandOutOfRange := by decide

theorem test_assemble_pseudo :
    assembleLine "VALIDATE 0,1, 0x02".toList = .ok (validationRun [0, 1, 2]) ∧
    assembleLine "FEEDS".toList = .ok [] := by decide

theorem test_assemble_program :
    assemble ["INIT".toList, "FEED 'E'".toList, "XFORM 0x45".toList, "FINISH".toList] =
      .ok [0x000#10, 0x145#10, 0x245#10, 0x300#10] := by decide

/-! ## Witnesses: a state and operands that meet the hypotheses of each obligation that has some -/

/-- TC1 in the middle of a run meets the invariants; so does a terminated run. -/
theorem inv_running : Inv (running tc1 [5, 0] [2]) :=
  ⟨by decide, by decide, by decide, fun h => absurd rfl h, by decide, by decide, by decide⟩

theorem inv_ended : Inv (ended tc1 [5, 5] [2]) :=
  ⟨by decide, by decide, by decide, fun h => absurd rfl h, by decide, by decide, by decide⟩

theorem inv_pass : Inv (running tc1p [5, 0] [2, 6]) :=
  ⟨by decide, by decide, by decide, fun h => absurd rfl h, by decide, by decide, by decide⟩

/-- The state `s` with one input driven next. -/
def driven (s : State) (cmd : Option CmdWord) (reset : Bool) : State := { s with inputs := [⟨cmd, reset⟩] }

theorem witness_InverseTableIsTheUniqueInverse :
    tc1.wellFormed = true ∧ 1 < tc1.N ∧ ([3, 0, 4, 2, 5, 1] : List Byte).length = tc1.A ∧
    ∀ x < tc1.A, readTable [3, 0, 4, 2, 5, 1] (readTable (rotorTable tc1 1) x) = x := by decide

theorem witness_CounterWidthIsLeastThatHoldsTheAlphabet :
    (tc1.wellFormed = true ∧ 1 ≤ 3 ∧ tc1.A ≤ 2 ^ 3) ∧ (tc6.wellFormed = true ∧ tc6.A ≤ 2 ^ 1) ∧
    Inv (running tc1 [5, 0] [2]) ∧ 5 ∈ (running tc1 [5, 0] [2]).pos := ⟨by decide, by decide, inv_running, by decide⟩

theorem witness_ResetStateIsTheFreshEngine : (ended tc2 [0, 0, 4] [17]).cfg = tc2 := rfl

theorem witness_ResetPortGivesTheResetState :
    (ended tc1 [0, 1] [2]).cfg.wellFormed = true ∧
    (driven (ended tc1 [0, 1] [2]) (some 0x145#10) true).inputs = ⟨some 0x145#10, true⟩ :: [] := by decide

theorem witness_InitBeginsAFreshRun :
    ∃ s', exec (.init 0xFF) (ended tc1 [0, 1] [2]) = .next s' ∧ (ended tc1 [0, 1] [2]).fault = true ∧
      s'.fault = false := ⟨_, rfl, rfl, rfl⟩

/-- The three clauses, at the last byte in domain and the first and last out of it. -/
theorem witness_TransformStepsThenTestsTheDomain :
    (5 : Byte).toNat < tc1.A ∧ (tc1p.A ≤ (6 : Byte).toNat ∧ tc1p.invalidPolicy = .pass) ∧
    (tc1.A ≤ (6 : Byte).toNat ∧ tc1.invalidPolicy = .fault) ∧ tc1.A ≤ (255 : Byte).toNat := by decide

/-- The four clauses of `FEED`, at the same bytes. -/
theorem witness_FeedTransformsAndAppends :
    (ended tc1 [0, 1] [2]).fault = true ∧
    ((running tc1 [5, 0] [2]).fault = false ∧ (5 : Byte).toNat < tc1.A) ∧
    ((running tc1p [5, 0] [2]).fault = false ∧ tc1p.A ≤ (6 : Byte).toNat ∧ tc1p.invalidPolicy = .pass) ∧
    ((running tc1 [5, 0] [2]).fault = false ∧ tc1.A ≤ (6 : Byte).toNat ∧ tc1.invalidPolicy = .fault) := by decide

/-- And of `XFORM`. -/
theorem witness_XformTransformsAndAppendsNothing :
    (ended tc1 [0, 1] []).fault = true ∧
    ((running tc1 [5, 0] []).fault = false ∧ (0 : Byte).toNat < tc1.A) ∧
    ((running tc1p [5, 0] []).fault = false ∧ tc1p.A ≤ (255 : Byte).toNat ∧ tc1p.invalidPolicy = .pass) ∧
    ((running tc1 [5, 0] []).fault = false ∧ tc1.A ≤ (6 : Byte).toNat ∧ tc1.invalidPolicy = .fault) := by decide

theorem witness_FinishDeliversTheVerdict :
    ∃ s', exec (.finish 0xC3) (running tc1 [5, 0] [2]) = .next s' := ⟨_, rfl⟩

/-- Each verdict is some state's, and the last clause's premises hold together. -/
theorem witness_VerdictIsTheExactComparison :
    verdictOf (ended tc1 [0, 1] [2]) = .faulted ∧
    verdictOf (running tc1 [0, 2] [2, 5, 1, 1, 2, 4, 4, 4]) = .accept ∧
    verdictOf (running tc1 [5, 1] [2, 5, 1, 1, 2, 4, 4]) = .reject ∧
    Inv (running tc1p [5, 0] [2, 6]) ∧ tc1p.invalidPolicy = .pass :=
  ⟨by decide, by decide, by decide, inv_pass, by decide⟩

/-- Each row of the table: `FEED` and `XFORM` on a terminated run, with the last byte in domain, and with the first out
of it under either policy; `FINISH` with each verdict. -/
theorem witness_ResponseOfEveryCommand :
    (ended tc1 [0, 1] [2]).fault = true ∧
    ((running tc1 [5, 0] [2]).fault = false ∧ (5 : Byte).toNat < tc1.A) ∧
    ((running tc1p [5, 0] [2]).fault = false ∧ tc1p.A ≤ (6 : Byte).toNat ∧ tc1p.invalidPolicy = .pass) ∧
    ((running tc1 [5, 0] [2]).fault = false ∧ tc1.A ≤ (6 : Byte).toNat ∧ tc1.invalidPolicy = .fault) ∧
    (verdictOf (running tc1 [0, 2] [2, 5, 1, 1, 2, 4, 4, 4]) = .accept ∧ verdictOf (running tc1 [4, 0] []) = .reject ∧
      verdictOf (ended tc1 [0, 1] [2]) = .faulted) := by decide

/-- The worked examples of R101 (second symbol), R87 (the byte 6 under PASS) and R104 (`INIT` alone), as words on
`RSP`. -/
theorem test_responses :
    seen (exec (.xform 1) (running tc1 [5, 0] [2])) = some ([0, 1], [2], 0b000#3, some 0x005#9) ∧
    seen (exec (.feed 6) (running tc1p [5, 0] [2])) = some ([0, 1], [2, 6], 0b000#3, some 0x006#9) ∧
    seen (exec (.finish 0) (running tc1 [4, 0] [])) = some ([4, 0], [], 0b010#3, some 0x002#9) :=
  ⟨by decide, by decide, by decide⟩

theorem witness_XformAndFinishStoreNothing :
    (∃ s', exec (.xform 5) (running tc1 [5, 0] [2]) = .next s') ∧ ∃ s', exec (.finish 0) (running tc1 [5, 0] [2]) = .next s' :=
  ⟨(exec_total _ _).imp fun _ h => h.1, (exec_total _ _).imp fun _ h => h.1⟩

/-- A `FEED` that stores and one that does not. -/
theorem witness_FeedStoresOnlyAtTheEndOfOut :
    (nextOf (exec (.feed 5) (running tc1 [5, 0] [2]))).map (fun s => (s.rsp.map Response.err, s.out.length)) =
      some (some false, 2) ∧
    (nextOf (exec (.feed 6) (running tc1 [5, 0] [2]))).map (fun s => (s.rsp.map Response.err, s.out.length)) =
      some (some true, 1) := by decide

theorem witness_InitDiscardsOnlyTheBuffer :
    ∃ s', exec (.init 0) (running tc1 [5, 0] [2]) = .next s' ∧ (running tc1 [5, 0] [2]).readByte .out 0 = some 2 :=
  ⟨_, rfl, rfl⟩

theorem witness_NothingWritesTheConfiguration :
    (∃ s', step (driven (running tc1 [5, 0] [2]) (some 0x101#10) false) = .next s') ∧
    ∃ s', Sys2Proof.core.run 2 (driven (running tc1 [5, 0] [2]) (some 0x101#10) false) = .next s' := by
  obtain ⟨s', h, _⟩ := step_total (s := driven (running tc1 [5, 0] [2]) (some 0x101#10) false) (by decide)
  obtain ⟨s'', h', _⟩ := step_total (s := s') (by rw [step_cfg h]; decide)
  exact ⟨⟨s', h⟩, s'', (run_succ h 1).trans (run_succ h' 0)⟩

theorem witness_StepExecutesTheDecodedCommand :
    tc1.wellFormed = true ∧ (driven (running tc1 [5, 0] [2]) (some 0x3FF#10) false).inputs = ⟨some 0x3FF#10, false⟩ :: [] := by
  decide

/-- Nothing driven any more; and a step on which the host drives nothing. -/
theorem witness_IdleStepKeepsAllState :
    tc1.wellFormed = true ∧ (running tc1 [5, 0] [2]).inputs = [] ∧
    (driven (running tc1 [5, 0] [2]) none false).inputs = ⟨none, false⟩ :: [] := by decide

theorem witness_WellFormedBlockNeverStops :
    (running tc1 [5, 0] [2]).cfg.wellFormed = true ∧ (running { tc1 with A := 0 } [5, 0] [2]).cfg.wellFormed = false := by
  decide

theorem witness_OneResponsePerCommand :
    (nextOf (step (driven (running tc1 [5, 0] [2]) (some 0x300#10) false))).isSome = true ∧
    (nextOf (step (driven (running tc1 [5, 0] [2]) (some 0x300#10) true))).isSome = true ∧
    (nextOf (step (running tc1 [5, 0] [2]))).isSome = true := by decide

theorem witness_PortRunsCommandsInIssueOrder : (running tc1 [5, 0] [2]).cfg.wellFormed = true := by decide

theorem witness_ResetMeetsTheInvariants : tc2.wellFormed = true := by decide

/-- From a running and from a terminated state. -/
theorem witness_EveryStepKeepsTheInvariants :
    (∃ s', Inv (driven (running tc1 [5, 0] [2]) (some 0x106#10) false) ∧
      step (driven (running tc1 [5, 0] [2]) (some 0x106#10) false) = .next s') ∧
    ∃ s', Inv (driven (ended tc1 [5, 5] [2]) (some 0x300#10) false) ∧
      step (driven (ended tc1 [5, 5] [2]) (some 0x300#10) false) = .next s' :=
  ⟨(step_total (s := driven (running tc1 [5, 0] [2]) (some 0x106#10) false) (by decide)).imp
      fun _ h => ⟨inv_running.ports _ _, h.1⟩,
    (step_total (s := driven (ended tc1 [5, 5] [2]) (some 0x300#10) false) (by decide)).imp
      fun _ h => ⟨inv_ended.ports _ _, h.1⟩⟩

/-- A state two transitions away from reset. -/
theorem witness_EveryReachableStateMeetsTheInvariants :
    tc1.wellFormed = true ∧ ∃ s, Reachable tc1 s ∧ s.pos = [5, 0] ∧ s.out = [2] := by
  have h : nextOf (step (driven (State.resetOf tc1) (some 0x100#10) false)) =
      some { running tc1 [5, 0] [2] with rsp := some ⟨false, 2⟩ } := by decide
  exact ⟨by decide, _, .step (.drive _ .reset) (eq_next_of_nextOf h), rfl, rfl⟩

/-- A terminated run, left by `INIT`, left by reset, and not left by `FEED`. -/
theorem witness_OnlyInitAndResetLeaveTheFaultedState :
    (ended tc1 [0, 1] [2]).fault = true ∧
    (nextOf (step (driven (ended tc1 [0, 1] [2]) (some 0x0FF#10) false))).map State.fault = some false ∧
    (nextOf (step (driven (ended tc1 [0, 1] [2]) none true))).map State.fault = some false ∧
    (nextOf (step (driven (ended tc1 [0, 1] [2]) (some 0x100#10) false))).map State.fault = some true := by decide

/-- The first byte out of domain raises; the last one in domain does not. -/
theorem witness_FaultIsRaisedExactlyByInvalidSymbol :
    (running tc1 [5, 0] [2]).fault = false ∧
    (nextOf (step (driven (running tc1 [5, 0] [2]) (some 0x206#10) false))).map State.fault = some true ∧
    (nextOf (step (driven (running tc1 [5, 0] [2]) (some 0x105#10) false))).map State.fault = some false := by decide

theorem witness_InvalidSymbolTerminatesTheRun :
    ((running tc1 [5, 0] [2]).fault = false ∧ tc1.invalidPolicy = .fault ∧ tc1.A ≤ (6 : Byte).toNat) ∧
    (ended tc1 [0, 1] [2]).fault = true := by decide

theorem witness_PassPolicyReturnsTheByteUnchanged :
    ((running tc1p [5, 0] [2]).fault = false ∧ tc1p.invalidPolicy = .pass ∧ tc1p.A ≤ (6 : Byte).toNat) ∧
    full.A = 256 ∧ (running full [255] []).fault = false ∧ ∃ s', exec (.feed 255) (running full [255] []) = .next s' :=
  ⟨by decide, rfl, rfl, (exec_total _ _).imp fun _ h => h.1⟩

theorem witness_FullAlphabetMakesThePoliciesAgree :
    (running full [255] []).cfg.A = 256 ∧
    ({ full with invalidPolicy := .pass } : Config) = { (running full [255] []).cfg with invalidPolicy := .pass } :=
  ⟨rfl, rfl⟩

theorem witness_BufferIsAppendOnly :
    (nextOf (step (driven (running tc1 [5, 0] [2]) (some 0x101#10) false))).map State.out = some [2, 5] ∧
    (nextOf (step (driven (running tc1 [5, 0] [2]) (some 0x201#10) false))).map State.out = some [2] ∧
    (nextOf (step (driven (running tc1 [5, 0] [2]) (some 0x000#10) false))).map State.out = some [] := by decide

/-- Two states that differ in the ports only. -/
theorem witness_ResponseDependsOnlyOnConfigurationAndState :
    (running tc1 [5, 0] [2]).cfg = (driven (running tc1 [5, 0] [2]) none true).cfg ∧
    (running tc1 [5, 0] [2]).pos = (driven (running tc1 [5, 0] [2]) none true).pos ∧
    (running tc1 [5, 0] [2]).out = (driven (running tc1 [5, 0] [2]) none true).out ∧
    (running tc1 [5, 0] [2]).fault = (driven (running tc1 [5, 0] [2]) none true).fault ∧
    (running tc1 [5, 0] [2]).verdict = (driven (running tc1 [5, 0] [2]) none true).verdict ∧
    (running tc1 [5, 0] [2]).inputs ≠ (driven (running tc1 [5, 0] [2]) none true).inputs := by decide

/-- Two states that differ in the buffer and in `EXPECTED`. -/
theorem witness_FeedIgnoresTheComparison :
    (running { tc1 with expected := [] } [5, 0] [9]).cfg = { (running tc1 [5, 0] [2]).cfg with expected := [] } ∧
    (running { tc1 with expected := [] } [5, 0] [9]).pos = (running tc1 [5, 0] [2]).pos ∧
    (running { tc1 with expected := [] } [5, 0] [9]).fault = (running tc1 [5, 0] [2]).fault ∧
    (running { tc1 with expected := [] } [5, 0] [9]).rsp = (running tc1 [5, 0] [2]).rsp := by decide

/-- A counter that gets the carry, at its two values, and one that does not. -/
theorem witness_StepAdvancesWithOdometerCarry :
    (1 < [5, 0].length ∧ ∀ j < 1, counter [5, 0] j = 6 - 1) ∧ (∀ j < 1, counter [5, 5] j = 6 - 1) ∧
    ¬ ∀ j < 1, counter [4, 5] j = 6 - 1 := by decide

theorem witness_SteppingCountsModuloThePower :
    (∀ p ∈ [5, 5], p < 6) ∧ [0, 0].length = [5, 5].length ∧ (∀ p ∈ [0, 0], p < 6) ∧
    counterValue 6 [0, 0] = (counterValue 6 [5, 5] + 1) % 6 ^ [5, 5].length := by decide

/-- With a plugboard and without one. -/
theorem witness_StagesComputeTheStatedLookups :
    (tc2.wellFormed = true ∧ [25, 25, 3].length = tc2.N ∧ (∀ p ∈ [25, 25, 3], p < tc2.A) ∧ 25 < tc2.A ∧
      tc2.plugPresent = true ∧ 2 < tc2.N) ∧
    (tc1.wellFormed = true ∧ [5, 0].length = tc1.N ∧ (∀ p ∈ [5, 0], p < tc1.A) ∧ 5 < tc1.A ∧ tc1.plug = none) := by
  decide

theorem witness_SubstIsTheWholePipeline :
    (tc1.wellFormed = true ∧ 5 < tc1.A) ∧ tc6.wellFormed = true ∧ 0 < tc6.A ∧ tc6.A = 1 := by decide

theorem witness_SubstIsAnInvolution :
    tc1.wellFormed = true ∧ [5, 5].length = tc1.N ∧ (∀ p ∈ [5, 5], p < tc1.A) ∧ 5 < tc1.A := by decide

/-- A reflector without fixed point, and one with. -/
theorem witness_SubstFixesExactlyWhatTheReflectorFixes :
    (tc1.wellFormed = true ∧ [5, 0].length = tc1.N ∧ (∀ p ∈ [5, 0], p < tc1.A) ∧ tc1.reflNoFixedPoint = true ∧
      0 < tc1.A) ∧
    (tc5.wellFormed = true ∧ [2].length = tc5.N ∧ (∀ p ∈ [2], p < tc5.A) ∧ 2 < tc5.A ∧ reflStage tc5 2 = 2) := by
  decide

theorem witness_TransformUnderPassIsABijection :
    tc1p.wellFormed = true ∧ [5, 0].length = tc1p.N ∧ (∀ p ∈ [5, 0], p < tc1p.A) ∧ tc1p.invalidPolicy = .pass := by
  decide

/-- TC4 of spec/95_test_vectors.md: its one rotor is a pure rotation by 1. -/
def tc4 : Config := { tc5 with A := 4, rotor := [[1, 2, 3, 0]], refl := [1, 0, 3, 2], start := [0] }

theorem witness_WhenConsecutiveCallsCoincide :
    (2 ≤ 6 ∧ [5, 5] ≠ [] ∧ ∀ p ∈ [5, 5], p < 6) ∧
    (tc4.wellFormed = true ∧ [3].length = tc4.N ∧ (∀ p ∈ [3], p < tc4.A) ∧ 0 < tc4.N ∧ 3 < tc4.A ∧
      ∀ z < tc4.A, readTable (rotorTable tc4 0) z = (z + 1) % tc4.A) ∧
    (tc6.wellFormed = true ∧ tc6.A = 1) := by decide

/-- Both branches of both operations, at `A = 6`. -/
theorem witness_OffsetArithmeticNeedsOneCorrection :
    (5 < 6 ∧ 0 < 6 ∧ 5 + 0 < 6) ∧ (5 < 6 ∧ 1 < 6 ∧ ¬ 5 + 1 < 6) ∧ 5 ≤ 5 ∧ ¬ 5 ≤ 4 := by decide

theorem witness_TransformReadsTheTablesInOrder :
    (running tc2 [25, 25, 3] []).cfg.wellFormed = true ∧ (running tc2 [25, 25, 3] []).pos.length = tc2.N ∧
    (∀ p ∈ (running tc2 [25, 25, 3] []).pos, p < tc2.A) ∧ (25 : Byte).toNat < tc2.A ∧ tc2.A ≤ (26 : Byte).toNat := by
  decide

theorem witness_SpacesHaveTheStatedLocations :
    (running tc2 [25, 25, 3] [17]).cfg.wellFormed = true ∧ 2 < tc2.N ∧ Space.plug ≠ .out ∧ Space.plug ≠ .expected ∧
    (4 : Byte) ∈ (running tc2 [25, 25, 3] [17]).readByte .plug 0 := by decide

/-- Under FAULT with bytes in domain, and under PASS with a byte out of it. -/
theorem witness_FeedsSubstituteAtSuccessivePositions :
    ((running tc1 [4, 0] []).cfg.invalidPolicy = .fault → ∀ x ∈ ([0, 5] : List Byte), x.toNat < tc1.A) ∧
    ((running tc1p [4, 0] []).cfg.invalidPolicy = .fault → ∀ x ∈ ([0, 255] : List Byte), x.toNat < tc1p.A) ∧
    (255 : Byte) ∈ ([0, 255] : List Byte)[1]? ∧ tc1p.A ≤ (255 : Byte).toNat := by decide

/-- An input of which no byte raises, and one of which the last does. -/
theorem witness_ValidationRunDeliversValidate :
    (ended tc1 [0, 1] [2]).cfg.wellFormed = true ∧
    (tc1.invalidPolicy = .fault → ∀ x ∈ ([0, 5] : List Byte), x.toNat < tc1.A) ∧ (5 : Byte) ∈ ([0, 5] : List Byte)[1]? ∧
    (tc1.invalidPolicy = .fault ∧ ∃ x ∈ ([0, 6] : List Byte), tc1.A ≤ x.toNat) := by decide

theorem witness_EveryFinishValidatesAllBytesFed :
    ∀ i ∈ [Instr.feed 0, .finish 0, .feed 255], (∃ sym, i = .feed sym) ∨ ∃ k, i = .finish k := by
  simp

/-- An accepted input, one too short, one too long, and an empty `EXPECTED` (V5.1, V5.4, V5.2, TC6 note). -/
theorem witness_WrongLengthIsAlwaysRejected :
    1 ≤ tc1.L ∧ tc5.L = 0 ∧
    (([0, 1, 2, 3, 4, 5, 0] : List Byte).length ≠ tc1.L ∧
      (tc1.invalidPolicy = .fault → ∀ x ∈ ([0, 1, 2, 3, 4, 5, 0] : List Byte), x.toNat < tc1.A)) ∧
    validate tc1 [0, 1, 2, 3, 4, 5, 0, 0] = .accept ∧
    ([0] : List Byte) ≠ [] ∧ validate tc1 ([0, 1, 2, 3, 4, 5, 0] ++ [0]) = .accept := by decide

/-- Changed to a byte in domain, and to one out of it. -/
theorem witness_ChangingOneSymbolRejects :
    tc1.wellFormed = true ∧ validate tc1 [0, 1, 2, 3, 4, 5, 0, 0] = .accept ∧
    7 < ([0, 1, 2, 3, 4, 5, 0, 0] : List Byte).length ∧
    ([0, 1, 2, 3, 4, 5, 0, 0] : List Byte)[7]? ≠ some 5 ∧ (5 : Byte).toNat < tc1.A ∧
    ([0, 1, 2, 3, 4, 5, 0, 0] : List Byte)[7]? ≠ some 6 := by decide

theorem witness_FeedingExpectedReturnsTheSecret :
    tc1.wellFormed = true ∧
    (validate tc1 [0, 1, 2, 3, 4, 5, 0, 0] = .accept ∧ ∀ x ∈ ([0, 1, 2, 3, 4, 5, 0, 0] : List Byte), x.toNat < tc1.A) ∧
    (∀ y ∈ tc1.expected, y.toNat < tc1.A) ∧
    (({ tc1 with expected := [6] } : Config).wellFormed = true ∧
      ({ tc1 with expected := [6] } : Config).invalidPolicy = .fault ∧
      ∃ y ∈ ({ tc1 with expected := [6] } : Config).expected, tc1.A ≤ y.toNat) := by decide

theorem witness_CompactBlockSimulatesTheBlock :
    ∃ s', execAll [.init 0, .feed 0, .xform 6, .feed 1, .finish 0] (running tc1 [5, 0] [2]) = .next s' :=
  (execAll_total _ _).imp fun _ h => h.1

theorem witness_DecodingAndEncodingAgree : (State.resetOf tc2).cfg.wellFormed = true := by decide

theorem witness_IgnoredFieldChangesNothing : opField 0x0FF#10 = 0b00#2 ∧ opField 0x3C3#10 = 0b11#2 := by decide

/-- The three operand texts of rule R67's example, a number one past the range, and the two ends of a line. -/
theorem numberText_69 : NumberText ['6', '9'] 69 := ⟨[6, 9], by decide, .inl (by decide)⟩
theorem numberText_256 : NumberText ['2', '5', '6'] 256 := ⟨[2, 5, 6], by decide, .inl (by decide)⟩
theorem operandText_0x45 : OperandText ['0', 'x', '4', '5'] 0x45 := .inl ⟨[4, 5], by decide, .inr (by decide)⟩
theorem operandText_69 : OperandText ['6', '9'] 0x45 := .inl numberText_69
theorem operandText_E : OperandText ['\'', 'E', '\''] 0x45 := .inr ⟨'E', by decide⟩
theorem lineEnd_blank : LineEnd [' '] := ⟨1, [], .inl rfl⟩
theorem lineEnd_comment : LineEnd [' ', ';', 'x'] := ⟨1, ['x'], .inr rfl⟩

theorem witness_AssemblerEncodesOperands :
    LineEnd [' ', ';', 'x'] ∧ OperandText ['0', 'x', '4', '5'] 0x45 ∧ OperandText ['6', '9'] 0x45 ∧
    OperandText ['\'', 'E', '\''] 0x45 ∧ NumberText ['2', '5', '6'] 256 :=
  ⟨lineEnd_comment, operandText_0x45, operandText_69, operandText_E, numberText_256⟩

/-- Operand lists on both sides of a number past the range, and a string. -/
theorem witness_PseudoInstructionsExpand :
    LineEnd [' '] ∧
    (∀ p ∈ [(['6', '9'], (0x45 : Byte))] ++ [(['\'', 'E', '\''], (0x45 : Byte))], OperandText p.1 p.2) ∧
    NumberText ['2', '5', '6'] 256 ∧ ∀ c ∈ ['O', 'K', '!'], c.toNat < 128 ∧ c ≠ '"' :=
  ⟨lineEnd_blank, fun p hp => by
    obtain rfl | rfl : p = _ ∨ p = _ := by simpa only [List.singleton_append, List.mem_cons, List.not_mem_nil, or_false] using hp
    · exact operandText_69
    · exact operandText_E, numberText_256, by simp⟩

/-- An `EXPECTED` with a byte in the alphabet and one outside it. -/
theorem witness_PassPolicyAcceptsExactlyOneInput :
    ({ tc1p with expected := [2, 6] } : Config).wellFormed = true ∧
    ({ tc1p with expected := [2, 6] } : Config).invalidPolicy = .pass ∧
    ({ tc1p with expected := [2, 6] } : Config).expected[0]? = some 2 ∧ (2 : Byte).toNat < tc1p.A ∧
    ({ tc1p with expected := [2, 6] } : Config).expected[1]? = some 6 ∧ tc1p.A ≤ (6 : Byte).toNat := by decide

theorem witness_DisassemblyAssemblesAgain : (decode 0x300#10).wellFormed = true := by decide

end Sys2Proof.Tests
end

section
/-! PROOFS. The reset state and `STATUS` (spec/10_state.md rules R25, R26, R31). -/

namespace Sys2Proof.Machine

/-- A word built as one flag above `w` bits of payload, the shape of `STATUS` and of `RSP`, has the flag in bit `w`. -/
theorem getLsbD_ofBool_append (flag : Bool) {w : Nat} (payload : BitVec w) :
    (BitVec.ofBool flag ++ payload).getLsbD w = flag := by
  rw [BitVec.getLsbD_append, if_neg (Nat.lt_irrefl w), Nat.sub_self]
  exact BitVec.getLsbD_ofBool flag 0 |>.trans (Bool.true_and flag)

@[simp] theorem statusWord_fault_bit (s : State) : (statusWord s).getLsbD 2 = s.fault :=
  getLsbD_ofBool_append s.fault s.verdict.code

@[simp] theorem statusWord_verdict_bits (s : State) : (statusWord s).extractLsb' 0 2 = s.verdict.code :=
  BitVec.extractLsb'_append_eq_right

@[simp] theorem statusWord_resetOf (c : Config) : statusWord (State.resetOf c) = 0b000#3 := by
  rw [statusWord, State.resetOf_fault, State.resetOf_verdict]
  decide

/-- `INIT` goes to the reset state of the block's own configuration, but for the ports: it answers on `RSP`, and leaves
the inputs to come (rules R31, R100). -/
theorem exec_init_eq_resetOf (g : Byte) (s : State) :
    exec (.init g) s =
      .next { State.resetOf s.cfg with rsp := some ⟨false, 0x00⟩, inputs := s.inputs } :=
  exec_init g s

/-- Settles O4: the fields by the laws of `State.resetOf`, and `INIT` by `exec_init_eq_resetOf`. -/
theorem resetStateIsTheFreshEngine : Obligations.ResetStateIsTheFreshEngine := by
  intro c
  refine ⟨State.resetOf_cfg c, State.resetOf_pos c, State.resetOf_out c, State.resetOf_fault c,
    State.resetOf_verdict c, statusWord_resetOf c, ?_⟩
  rintro s g rfl
  exact exec_init_eq_resetOf g s

/-- Settles O12: the codes are the definition's, and `STATUS` has the flag above them. -/
theorem statusIsFaultAndVerdictCode : Obligations.StatusIsFaultAndVerdictCode :=
  ⟨rfl, rfl, rfl, rfl, fun s => ⟨statusWord_fault_bit s, statusWord_verdict_bits s⟩⟩

end Sys2Proof.Machine
end

section
/-! PROOFS. What no step and no run of steps writes (spec/20_memory.md rule R53). -/

namespace Sys2Proof.Machine

open Host

/-- The inversion of a run of one step or more: its first step goes on, and so does the rest of the run. -/
theorem run_succ_cases {n : Nat} {s s' : State} (h : Sys2Proof.core.run (n + 1) s = .next s') :
    ∃ t, step s = .next t ∧ Sys2Proof.core.run n t = .next s' := by
  cases hw : s.cfg.wellFormed with
  | false =>
    simp only [Core.run] at h
    rw [show Sys2Proof.core.step s = .refused .illFormedConfig from step_refused hw] at h
    cases h
  | true =>
    obtain ⟨t, ht, _⟩ := step_total hw
    exact ⟨t, ht, (run_succ ht n).symm.trans h⟩

/-- What every step keeps, every run of steps keeps. -/
theorem run_keeps {P : State → Prop} (hstep : ∀ {t t' : State}, step t = .next t' → P t → P t')
    {n : Nat} {s s' : State} (h : Sys2Proof.core.run n s = .next s') (hs : P s) : P s' := by
  induction n generalizing s with
  | zero => cases h; exact hs
  | succ n ih =>
    obtain ⟨t, ht, hrest⟩ := run_succ_cases h
    exact ih hrest (hstep ht hs)

theorem run_cfg {n : Nat} {s s' : State} (h : Sys2Proof.core.run n s = .next s') : s'.cfg = s.cfg :=
  run_keeps (P := fun t => t.cfg = s.cfg) (fun ht hc => (step_cfg ht).trans hc) h rfl

/-- Settles O17: a step keeps the configuration, every space but `OUT` is read off it, and a run keeps what its steps
keep. -/
theorem nothingWritesTheConfiguration : Obligations.NothingWritesTheConfiguration := by
  refine ⟨fun s s' h => ⟨step_cfg h, fun sp k hsp => ?_⟩, fun n s s' h => run_cfg h⟩
  exact readByte_table (step_cfg h) hsp k

end Sys2Proof.Machine
end

section
/-! PROOFS. The opcode map (spec/30_encoding.md rules R60, R65). -/

namespace Sys2Proof

/-- The operand field is the word's low byte (rule R60). -/
theorem symField_eq_setWidth (w : CmdWord) : symField w = w.setWidth 8 :=
  BitVec.setWidth_eq_extractLsb' (by decide) |>.symm

/-- What the decoder can answer: one command per value of `op`, each with the word's operand field (rule R65). -/
theorem decode_cases (w : CmdWord) :
    (opField w = 0b00#2 ∧ decode w = .init (symField w)) ∨ (opField w = 0b01#2 ∧ decode w = .feed (symField w)) ∨
    (opField w = 0b10#2 ∧ decode w = .xform (symField w)) ∨ (opField w = 0b11#2 ∧ decode w = .finish (symField w)) := by
  rcases op_cases (opField w) with h | h | h | h <;> simp [decode, h]

/-- The laws of the four constructors together: every command decodes from its word, which selects the command's row. -/
theorem Laws.Encoding.of_instr : ∀ i : Instr, Laws.Encoding.Statement i
  | .init ignored   => Laws.Encoding.init ignored
  | .feed sym       => Laws.Encoding.feed sym
  | .xform sym      => Laws.Encoding.xform sym
  | .finish ignored => Laws.Encoding.finish ignored

/-- A word selects exactly one row of the opcode map, the row with the mnemonic of the command it decodes to: the word
is the encoding of that command. -/
theorem opcodeTable_filter_selects (w : CmdWord) :
    ∃ r, opcodeTable.filter (fun r => r.selects w) = [r] ∧ r.mnemonic = (decode w).mnemonic := by
  obtain ⟨_, hrow⟩ := Laws.Encoding.of_instr (decode w)
  rw [encode_decode] at hrow
  exact List.map_eq_singleton_iff.1 hrow

namespace Machine

/-- Settles O53: the one row by `opcodeTable_filter_selects`, the command and its operand by `decode_cases`. -/
theorem opcodeTablePartitionsAllWords : Obligations.OpcodeTablePartitionsAllWords := by
  refine ⟨rfl, fun w => ?_⟩
  obtain ⟨r, hrow, hname⟩ := opcodeTable_filter_selects w
  refine ⟨r, hrow, hname, ?_⟩
  rw [← symField_eq_setWidth]
  obtain ⟨_, h⟩ | ⟨_, h⟩ | ⟨_, h⟩ | ⟨_, h⟩ := decode_cases w
  · exact .inl h
  · exact .inr (.inl h)
  · exact .inr (.inr (.inl h))
  · exact .inr (.inr (.inr h))

end Machine
end Sys2Proof
end

section
/-! PROOFS. The response of every command (spec/30_encoding.md rule R62). -/

namespace Sys2Proof.Machine

@[simp] theorem Response.word_err_bit (r : Response) : r.word.getLsbD 8 = r.err :=
  getLsbD_ofBool_append r.err r.data

@[simp] theorem Response.word_data_bits (r : Response) : r.word.extractLsb' 0 8 = r.data :=
  BitVec.extractLsb'_append_eq_right

/-- The block keeps no copy of its last response: `exec_ports` with the inputs left as they are. -/
theorem exec_ignores_rsp (i : Instr) (s : State) (before : Option Response) :
    exec i { s with rsp := before } = exec i s := by
  obtain ⟨s', h, _⟩ := exec_total i s
  rw [h]
  exact (exec_ports h s.inputs before).trans (by rw [← exec_inputs h])

/-- What the engine's answer is as a response (rules R62, R87). -/
def EngineResult.response : EngineResult → Response
  | .symbol y        => ⟨false, y⟩
  | .invalidSymbol b => ⟨true, b⟩

/-- The rows of rule R62 that `FEED` and `XFORM` share: the terminated run, and the engine's answer at the stepped
counters. `exec_symbol_rsp` ties it to both commands. -/
def symbolResponse (sym : Byte) (s : State) : Response :=
  if s.fault then ⟨true, sym⟩ else (engineResult s.cfg (stepCounters s.cfg.A s.pos) sym).response

theorem symbolResponse_terminated {s : State} (hf : s.fault = true) (sym : Byte) :
    symbolResponse sym s = ⟨true, sym⟩ := by
  rw [symbolResponse, if_pos hf]

theorem symbolResponse_running {s : State} (hf : s.fault = false) {sym : Byte} {e : EngineResult}
    (he : engineResult s.cfg (stepCounters s.cfg.A s.pos) sym = e) : symbolResponse sym s = e.response := by
  rw [symbolResponse, if_neg (by simp [hf]), he]

/-- `FEED` and `XFORM` answer alike; only what they store differs. -/
theorem exec_symbol_rsp {sym : Byte} {i : Instr} (hi : i = .feed sym ∨ i = .xform sym) {s s' : State}
    (h : exec i s = .next s') : s'.rsp = some (symbolResponse sym s) := by
  obtain rfl | rfl := hi
  · cases exec_cases h with
    | feedTerminated _ hf => rw [symbolResponse_terminated hf]
    | feedSymbol _ y hf he => rw [symbolResponse_running hf he]; rfl
    | feedInvalid _ hf hp hb => rw [symbolResponse_running hf (engineResult_fault hb hp _)]; rfl
  · cases exec_cases h with
    | xformTerminated _ hf => rw [symbolResponse_terminated hf]
    | xformSymbol _ y hf he => rw [symbolResponse_running hf he]; rfl
    | xformInvalid _ hf hp hb => rw [symbolResponse_running hf (engineResult_fault hb hp _)]; rfl

/-- What `verdict_of` can answer, and the fault bit it says (rule R105). -/
theorem verdictOf_cases (s : State) :
    verdictOf s = .accept ∧ s.fault = false ∨ verdictOf s = .reject ∧ s.fault = false ∨
      verdictOf s = .faulted ∧ s.fault = true := by
  cases hf : s.fault with
  | true => simp [verdictOf, verdictFrom, hf]
  | false => by_cases h : s.out = s.cfg.expected <;> simp [verdictOf, verdictFrom, hf, h]

/-- Settles O13: `INIT` and `FINISH` by their equations, `FEED` and `XFORM` by the row of `symbolResponse`. -/
theorem responseOfEveryCommand : Obligations.ResponseOfEveryCommand := by
  refine ⟨fun r => ⟨r.word_err_bit, r.word_data_bits⟩, exec_ignores_rsp, fun s => ⟨fun g => ?_, ?_, fun g => ?_⟩⟩
  · exact ⟨_, _, exec_init g s, rfl, rfl, rfl⟩
  · intro sym i hi
    obtain ⟨s', h, _⟩ := exec_total i s
    refine ⟨s', symbolResponse sym s, h, exec_symbol_rsp hi h, fun hf => ?_, fun hf hb => ?_, fun hf hb hp => ?_,
      fun hf hb hp => ?_⟩
    · rw [symbolResponse_terminated hf]; exact ⟨rfl, rfl⟩
    · rw [symbolResponse_running hf (engineResult_inDomain hb _)]; exact ⟨rfl, rfl⟩
    · rw [symbolResponse_running hf (engineResult_pass hb hp _)]; exact ⟨rfl, rfl⟩
    · rw [symbolResponse_running hf (engineResult_fault hb hp _)]; exact ⟨rfl, rfl⟩
  · refine ⟨_, _, exec_finish g s, rfl, rfl, rfl, rfl, ?_⟩
    obtain ⟨hv, hf⟩ | ⟨hv, hf⟩ | ⟨hv, hf⟩ := verdictOf_cases s
    · exact .inl ⟨hv, congrArg Verdict.byte hv, hf⟩
    · exact .inr (.inl ⟨hv, congrArg Verdict.byte hv, hf⟩)
    · exact .inr (.inr ⟨hv, congrArg Verdict.byte hv, hf⟩)

end Sys2Proof.Machine
end

section
/-! PROOFS. The stepping rule counter by counter (spec/40_engine.md rule R80). -/

namespace Sys2Proof.Machine

/-- The carry reaches counter `i + 1` when counter 0 passes it on and, among the counters after it, it reaches `i`. -/
theorem counters_below_wrap_cons (A p : Nat) (ps : List Nat) (i : Nat) :
    (∀ j < i + 1, counter (p :: ps) j = A - 1) ↔ p = A - 1 ∧ ∀ j < i, counter ps j = A - 1 := by
  simp only [Nat.forall_lt_succ_left, counter_cons_zero, counter_cons_succ]

/-- The stepping rule at counter `i`: it moves exactly when every counter below it wraps. -/
theorem counter_stepCounters (A : Nat) {pos : List Nat} {i : Nat} (hi : i < pos.length) :
    counter (stepCounters A pos) i =
      if ∀ j < i, counter pos j = A - 1 then
        (if counter pos i = A - 1 then 0 else counter pos i + 1)
      else counter pos i := by
  induction pos generalizing i with
  | nil => exact absurd hi (Nat.not_lt_zero i)
  | cons p ps ih =>
    rw [stepCounters_cons]
    cases i with
    | zero => by_cases hp : p = A - 1 <;> simp [hp]
    | succ i =>
      have hps : i < ps.length := Nat.lt_of_succ_lt_succ hi
      simp only [counters_below_wrap_cons, counter_cons_succ]
      by_cases hp : p = A - 1
      · simp only [hp, if_true, counter_cons_succ, ih hps, true_and]
      · simp only [hp, if_false, counter_cons_succ, false_and]

/-- Settles O34: `STEP` keeps the number of counters, and moves each as `counter_stepCounters` says. -/
theorem stepAdvancesWithOdometerCarry : Obligations.StepAdvancesWithOdometerCarry :=
  fun A pos => ⟨stepCounters_length A pos, fun _ hi => counter_stepCounters A hi⟩

end Sys2Proof.Machine
end

section
/-! PROOFS. `SUBST` as the loops of rule R86 (spec/40_engine.md). -/

namespace Sys2Proof.Machine

/-- The forward pass is the loop over rotors `0, 1, ..., n-1`. -/
theorem forwardPass_eq_foldl (c : Config) (pos : List Nat) (n x : Nat) :
    forwardPass c pos n x = (List.range n).foldl (fun v i => fwdStage c pos i v) x := by
  induction n with
  | zero => rfl
  | succ n ih => rw [forwardPass, ih, List.range_succ, List.foldl_concat]

/-- The return pass is the loop over rotors `n-1, ..., 1, 0`. -/
theorem returnPass_eq_foldl (c : Config) (pos : List Nat) (n x : Nat) :
    returnPass c pos n x = (List.range n).reverse.foldl (fun v i => retStage c pos i v) x := by
  induction n generalizing x with
  | zero => rfl
  | succ n ih => rw [returnPass, ih, List.range_succ, List.reverse_concat, List.foldl_cons]

/-- Settles O37: each pass is its loop, and the range is `subst_lt`, which leaves only 0 when `A = 1`. -/
theorem substIsTheWholePipeline : Obligations.SubstIsTheWholePipeline := by
  refine ⟨fun c pos x => ?_, fun c pos x hc hx => ?_⟩
  · rw [subst, returnPass_eq_foldl, forwardPass_eq_foldl]
  · have hlt : subst c pos x < c.A := subst_lt ((wellFormed_iff c).1 hc) pos hx
    exact ⟨hlt, fun hA => by omega⟩

end Sys2Proof.Machine
end

section
/-! PROOFS. `TRANSFORM` and `XFORM` in all their cases (spec/40_engine.md rules R87, R88). -/

namespace Sys2Proof.Machine

/-- Settles O7: the three answers of the engine, each with what `TRANSFORM` does of it. -/
theorem transformStepsThenTestsTheDomain : Obligations.TransformStepsThenTestsTheDomain := by
  intro s b
  refine ⟨fun hb => ?_, fun hb hp => ?_, fun hb hp => ?_⟩
  · exact transform_symbol (engineResult_inDomain hb _)
  · exact transform_symbol (engineResult_pass hb hp _)
  · exact transform_invalid (engineResult_fault hb hp _)

/-- Settles O9: the terminated run, and the three answers of the engine at the stepped counters. -/
theorem xformTransformsAndAppendsNothing : Obligations.XformTransformsAndAppendsNothing := by
  intro s sym
  refine ⟨fun hf => ?_, fun hf hb => ?_, fun hf hb hp => ?_, fun hf hb hp => ?_⟩
  · exact exec_xform_terminated hf sym
  · exact exec_xform_symbol hf (engineResult_inDomain hb _)
  · exact exec_xform_symbol hf (engineResult_pass hb hp _)
  · exact exec_xform_invalid hf (engineResult_fault hb hp _)

end Sys2Proof.Machine
end

section
/-! PROOFS. The verdict function as the comparison it is (spec/41_validator.md rule R105). -/

namespace Sys2Proof.Machine

theorem verdictOf_eq_faulted_iff (s : State) : verdictOf s = .faulted ↔ s.fault = true := by
  obtain ⟨hv, hf⟩ | ⟨hv, hf⟩ | ⟨hv, hf⟩ := verdictOf_cases s <;> simp [hv, hf]

theorem verdictOf_eq_accept_iff (s : State) :
    verdictOf s = .accept ↔ s.fault = false ∧ s.out = s.cfg.expected := by
  cases hf : s.fault with
  | true => simp [verdictOf, verdictFrom, hf]
  | false => simp [verdictOf, verdictFrom, hf]

/-- `verdict_of` on a state's buffer is one of three answers, so `REJECT` is what is neither of the others. -/
theorem verdictOf_eq_reject_iff (s : State) :
    verdictOf s = .reject ↔ verdictOf s ≠ .faulted ∧ verdictOf s ≠ .accept := by
  obtain ⟨hv, _⟩ | ⟨hv, _⟩ | ⟨hv, _⟩ := verdictOf_cases s <;> simp [hv]

/-- Two sequences are equal exactly when they have one length and agree at every index below it (rule R16). -/
theorem eq_iff_length_and_getElem? {α : Type} (l m : List α) :
    l = m ↔ l.length = m.length ∧ ∀ j < m.length, l[j]? = m[j]? := by
  constructor
  · rintro rfl
    exact ⟨rfl, fun _ _ => rfl⟩
  · rintro ⟨hlen, hget⟩
    exact List.ext_getElem?' fun j hj => hget j (by rwa [hlen, Nat.max_self] at hj)

/-- Settles O11: `FAULTED` is the fault bit, which `Inv` keeps clear under `PASS`; `ACCEPT` is equality of the two
sequences, said length and element by element; `REJECT` is what is left; and none of the three reads `POS`. -/
theorem verdictIsTheExactComparison : Obligations.VerdictIsTheExactComparison := by
  intro s
  refine ⟨verdictOf_eq_faulted_iff s, ?_, verdictOf_eq_reject_iff s, fun _ => rfl, fun hi hp => ?_⟩
  · rw [verdictOf_eq_accept_iff, eq_iff_length_and_getElem?]
    rfl
  · rw [Ne, verdictOf_eq_faulted_iff, hi.noFaultUnderPass hp]
    exact Bool.false_ne_true

end Sys2Proof.Machine
end

section
/-! PROOFS. `INIT` and `FEED` in all their cases (spec/41_validator.md rules R100, R101). -/

namespace Sys2Proof.Machine

/-- The one command that takes a block out of the terminated run is `INIT`: every other case of `ExecCase` from a
faulted state leaves `FAULT` as it is. -/
theorem init_of_exec_clears_fault {i : Instr} {s s' : State} (h : exec i s = .next s') (hf : s.fault = true)
    (hf' : s'.fault = false) : ∃ g, i = .init g := by
  have hne : s'.fault ≠ s.fault := by simp [hf, hf']
  cases exec_cases h with
  | init g => exact ⟨g, rfl⟩
  | finish g => exact absurd rfl hne
  | feedTerminated sym _ => exact absurd rfl hne
  | xformTerminated sym _ => exact absurd rfl hne
  | feedSymbol sym y _ _ => exact absurd rfl hne
  | xformSymbol sym y _ _ => exact absurd rfl hne
  | feedInvalid sym hr _ _ => exact absurd hf (by simp [hr])
  | xformInvalid sym hr _ _ => exact absurd hf (by simp [hr])

/-- Settles O6: the equation of `INIT`, whose result reads nothing that a first `INIT` wrote; and
`init_of_exec_clears_fault`. -/
theorem initBeginsAFreshRun : Obligations.InitBeginsAFreshRun := by
  intro s ignored
  refine ⟨exec_init ignored s, fun s' again h => ?_, fun i s' h hf hf' => init_of_exec_clears_fault h hf hf'⟩
  rw [exec_init] at h
  cases h
  exact exec_init again _

/-- Settles O8: the terminated run, and the three answers of the engine at the stepped counters. -/
theorem feedTransformsAndAppends : Obligations.FeedTransformsAndAppends := by
  intro s sym
  refine ⟨fun hf => ?_, fun hf hb => ?_, fun hf hb hp => ?_, fun hf hb hp => ?_⟩
  · exact exec_feed_terminated hf sym
  · exact exec_feed_symbol hf (engineResult_inDomain hb _)
  · exact exec_feed_symbol hf (engineResult_pass hb hp _)
  · exact exec_feed_invalid hf (engineResult_fault hb hp _)

end Sys2Proof.Machine
end

section
/-! PROOFS. Taking `InvalidSymbol`, and the policies under which it is not taken (spec/60_exceptions.md rules R121,
R122). -/

namespace Sys2Proof.Machine

/-- What a `FINISH` on a terminated run answers: the verdict is `FAULTED`, whose byte is `0x03`. -/
theorem exec_finish_terminated {s : State} (hf : s.fault = true) (g : Byte) :
    exec (.finish g) s = .next { s with verdict := .faulted, rsp := some ⟨true, 0x03⟩ } := by
  rw [exec_finish, (verdictOf_eq_faulted_iff s).2 hf, hf]
  rfl

/-- A command that raises `FAULT` is a `FEED` or an `XFORM` of a byte outside the alphabet, under the `FAULT` policy:
every other case of `ExecCase` from a running state leaves `FAULT` at 0. -/
theorem invalidSymbol_of_exec_sets_fault {i : Instr} {s s' : State} (h : exec i s = .next s') (hf : s.fault = false)
    (hf' : s'.fault = true) :
    ∃ sym, (i = .feed sym ∨ i = .xform sym) ∧ s.cfg.invalidPolicy = .fault ∧ s.cfg.A ≤ sym.toNat := by
  have hne : s'.fault ≠ s.fault := by simp [hf, hf']
  cases exec_cases h with
  | init g => exact absurd hf' Bool.false_ne_true
  | finish g => exact absurd rfl hne
  | feedTerminated sym _ => exact absurd rfl hne
  | xformTerminated sym _ => exact absurd rfl hne
  | feedSymbol sym y _ _ => exact absurd rfl hne
  | xformSymbol sym y _ _ => exact absurd rfl hne
  | feedInvalid sym _ hp hb => exact ⟨sym, .inl rfl, hp, hb⟩
  | xformInvalid sym _ hp hb => exact ⟨sym, .inr rfl, hp, hb⟩

/-- Settles O29: the engine passes the byte through under `PASS`, and no byte lies outside an alphabet of 256. -/
theorem passPolicyReturnsTheByteUnchanged : Obligations.PassPolicyReturnsTheByteUnchanged := by
  refine ⟨fun s b hf hp hb => ?_, fun s s' i hA hf h => ?_⟩
  · have he := engineResult_pass hb hp (stepCounters s.cfg.A s.pos)
    exact ⟨exec_feed_symbol hf he, exec_xform_symbol hf he⟩
  · rw [← Bool.not_eq_true]
    intro hf'
    obtain ⟨b, _, _, hb⟩ := invalidSymbol_of_exec_sets_fault h hf hf'
    have := b.isLt
    omega

/-- Settles O28: the engine's exception at the stepped counters, and each command's answer on a terminated run. -/
theorem invalidSymbolTerminatesTheRun : Obligations.InvalidSymbolTerminatesTheRun := by
  refine ⟨fun s b i hi hf hp hb => ?_, fun s hf => ?_⟩
  · have he := engineResult_fault hb hp (stepCounters s.cfg.A s.pos)
    obtain rfl | rfl := hi
    · exact exec_feed_invalid hf he
    · exact exec_xform_invalid hf he
  · exact ⟨exec_feed_terminated hf, exec_xform_terminated hf, exec_finish_terminated hf⟩

end Sys2Proof.Machine
end

section
/-! PROOFS. The invariants of spec/10_state.md rule R28 over steps, and over all a host can drive. -/

namespace Sys2Proof.Machine

/-- Every step keeps the invariants: an idle step touches the ports only, a reset starts over, and a command keeps
them by `exec_inv`. -/
theorem step_inv {s s' : State} (hi : Inv s) (h : step s = .next s') : Inv s' := by
  cases step_cases h with
  | quiet _ => exact hi.ports s.inputs none
  | pause rest _ => exact hi.ports rest none
  | reset _ rest _ => exact (inv_resetOf hi.configOk).ports rest none
  | command w rest _ _ hx => exact exec_inv (hi.ports rest s.rsp) hx

/-- Settles O24, by `step_inv`. -/
theorem everyStepKeepsTheInvariants : Obligations.EveryStepKeepsTheInvariants :=
  fun _ _ => step_inv

/-- Settles O23, by `inv_resetOf`. -/
theorem resetMeetsTheInvariants : Obligations.ResetMeetsTheInvariants :=
  fun _ => inv_resetOf

/-- Settles O25: the reset state meets the invariants, what the host drives does not touch them, and every step keeps
them and the configuration. -/
theorem everyReachableStateMeetsTheInvariants : Obligations.EveryReachableStateMeetsTheInvariants := by
  intro c s hw hr
  induction hr with
  | reset => exact ⟨inv_resetOf hw, rfl⟩
  | @drive s inputs _ ih => exact ⟨ih.1.ports inputs s.rsp, ih.2⟩
  | step _ hs ih => exact ⟨step_inv ih.1 hs, (step_cfg hs).trans ih.2⟩

end Sys2Proof.Machine
end

section
/-! PROOFS. `CNT` and `MISMATCH` in the place of `OUT` (spec/10_state.md rule R23). -/

namespace Sys2Proof.Machine

open Host

/-- An append sets `MISMATCH` when the byte lands inside `EXPECTED` and differs there; before it the buffer's own
length is where it lands. -/
theorem ofOut_append_mismatch (expected out : List Byte) (y : Byte) :
    (Comparator.ofOut expected (out ++ [y])).mismatch = true ↔
      (Comparator.ofOut expected out).mismatch = true ∨
        out.length < expected.length ∧ expected[out.length]? ≠ some y := by
  rw [ofOut_append]
  simp only [Comparator.append, ofOut_count, Bool.or_eq_true, Bool.and_eq_true, decide_eq_true_eq]
  by_cases hlt : out.length < expected.length
  · rw [min_eq_left (by omega)]
  · have hsat : ¬ min out.length (expected.length + 1) < expected.length := by omega
    simp only [hlt, hsat, false_and]

/-- `MISMATCH` is set exactly when some stored byte differs from `EXPECTED` at its index. -/
theorem ofOut_mismatch (expected out : List Byte) :
    (Comparator.ofOut expected out).mismatch = true ↔
      ∃ j, j < out.length ∧ j < expected.length ∧ out[j]? ≠ expected[j]? := by
  induction out using List.reverseRecOn with
  | nil => simp [Comparator.empty]
  | append_singleton out y ih =>
    rw [ofOut_append_mismatch, ih, List.length_append, List.length_singleton]
    simp only [Nat.exists_lt_succ_right]
    refine or_congr (exists_congr fun j => and_congr_right fun hj => ?_) ?_
    · rw [List.getElem?_append_left hj]
    · rw [List.getElem?_concat_length, ne_comm]

/-- `CNT = L` and `MISMATCH = 0` say that the buffer is `EXPECTED`. -/
theorem eq_expected_iff_comparator (expected out : List Byte) :
    out = expected ↔
      (Comparator.ofOut expected out).count = expected.length ∧ (Comparator.ofOut expected out).mismatch = false := by
  have hcount : min out.length (expected.length + 1) = expected.length ↔ out.length = expected.length := by omega
  rw [ofOut_count, hcount, ← Bool.not_eq_true, ofOut_mismatch, eq_iff_length_and_getElem?]
  refine and_congr_right fun hlen => ?_
  simp only [hlen, not_exists, not_and, not_not]
  exact forall_congr' fun j => ⟨fun h _ => h, fun h hj => h hj hj⟩

/-- Settles O51: the count by `ofOut_count`, the mismatch bit by induction over the appends, and the comparison from
the two. -/
theorem countAndMismatchStandForTheBuffer : Obligations.CountAndMismatchStandForTheBuffer :=
  fun expected out =>
    ⟨ofOut_count expected out, ofOut_mismatch expected out, eq_expected_iff_comparator expected out⟩

theorem matched_ofOut_iff (expected out : List Byte) :
    (Comparator.ofOut expected out).matched expected = true ↔ out = expected := by
  rw [eq_expected_iff_comparator]
  simp [Comparator.matched]

/-- The compact form gives the verdict of the state it stands for. -/
theorem verdictOf_ofState (s : State) : (CompactState.ofState s).verdictOf = verdictOf s := by
  cases hf : s.fault <;>
    simp [CompactState.verdictOf, CompactState.ofState, verdictOf, verdictFrom, hf, matched_ofOut_iff]

/-- `FEED` and `XFORM` of the compact block on a terminated run. -/
theorem CompactState.transform_terminated {s : State} (hf : s.fault = true) (keep : Bool) (sym : Byte) :
    (CompactState.ofState s).transform keep sym = CompactState.ofState { s with rsp := some ⟨true, sym⟩ } := by
  rw [CompactState.transform, if_pos (show (CompactState.ofState s).fault = true from hf)]
  rfl

/-- `FEED` and `XFORM` of the compact block where the engine raises. -/
theorem CompactState.transform_invalid {s : State} (hf : s.fault = false) (keep : Bool) {sym e : Byte}
    (he : engineResult s.cfg (stepCounters s.cfg.A s.pos) sym = .invalidSymbol e) :
    (CompactState.ofState s).transform keep sym = CompactState.ofState (s.terminated e) := by
  simp [CompactState.transform, CompactState.ofState, State.terminated, hf, he]

/-- `XFORM` of the compact block where the engine answers a symbol. -/
theorem CompactState.transform_drop {s : State} (hf : s.fault = false) {sym y : Byte}
    (he : engineResult s.cfg (stepCounters s.cfg.A s.pos) sym = .symbol y) :
    (CompactState.ofState s).transform false sym = CompactState.ofState (s.answered y) := by
  simp [CompactState.transform, CompactState.ofState, State.answered, hf, he]

/-- `FEED` of the compact block where the engine answers a symbol: the comparator takes the byte `OUT` would. -/
theorem CompactState.transform_keep {s : State} (hf : s.fault = false) {sym y : Byte}
    (he : engineResult s.cfg (stepCounters s.cfg.A s.pos) sym = .symbol y) :
    (CompactState.ofState s).transform true sym =
      CompactState.ofState { s.answered y with out := s.out ++ [y] } := by
  simp [CompactState.transform, CompactState.ofState, State.answered, hf, he, ofOut_append]

/-- One command: the compact block goes to the compact form of where the block goes. -/
theorem compactExec_ofState {i : Instr} {s s' : State} (h : exec i s = .next s') :
    compactExec i (CompactState.ofState s) = CompactState.ofState s' := by
  cases exec_cases h with
  | init g => rfl
  | finish g =>
    rw [compactExec, verdictOf_ofState]
    rfl
  | feedTerminated sym hf => exact CompactState.transform_terminated hf true sym
  | xformTerminated sym hf => exact CompactState.transform_terminated hf false sym
  | feedSymbol sym y hf he => exact CompactState.transform_keep hf he
  | xformSymbol sym y hf he => exact CompactState.transform_drop hf he
  | feedInvalid sym hf hp hb => exact CompactState.transform_invalid hf true (engineResult_fault hb hp _)
  | xformInvalid sym hf hp hb => exact CompactState.transform_invalid hf false (engineResult_fault hb hp _)

/-- Settles O52, by induction over the commands with `compactExec_ofState` for each. -/
theorem compactBlockSimulatesTheBlock : Obligations.CompactBlockSimulatesTheBlock := by
  intro is
  induction is with
  | nil =>
    rintro s s' h
    cases h
    rfl
  | cons i is ih =>
    intro s s' h
    obtain ⟨t, ht, _⟩ := exec_total i s
    rw [execAll_cons ht] at h
    rw [List.foldl_cons, compactExec_ofState ht]
    exact ih t s' h

end Sys2Proof.Machine
end

section
/-! PROOFS. Decoding and encoding agree (spec/30_encoding.md rules R60, R64, R65, R66). -/

namespace Sys2Proof

/-- The number of a command word: the opcode's place is 0x100. -/
theorem cmdWord_toNat (op : BitVec 2) (sym : Byte) : (cmdWord op sym).toNat = op.toNat * 0x100 + sym.toNat := by
  rw [cmdWord, BitVec.toNat_append, ← Nat.shiftLeft_add_eq_or_of_lt sym.isLt, Nat.shiftLeft_eq]

namespace Machine

/-- The canonical commands, by the numbers of their words (rule R66). -/
theorem wellFormed_iff_encode (i : Instr) : i.wellFormed = true ↔
    encode i = 0x000#10 ∨ encode i = 0x300#10 ∨ (0x100 ≤ (encode i).toNat ∧ (encode i).toNat < 0x300) := by
  rw [← BitVec.toNat_inj, ← BitVec.toNat_inj]
  cases i with
  | init ignored =>
    have hlt := ignored.isLt
    have hzero : ignored = 0 ↔ ignored.toNat = 0 := BitVec.toNat_inj.symm
    simp only [Instr.wellFormed, encode, cmdWord_toNat, beq_iff_eq, hzero, BitVec.toNat_ofNat]
    omega
  | feed sym =>
    have hlt := sym.isLt
    simp only [Instr.wellFormed, encode, cmdWord_toNat, BitVec.toNat_ofNat, true_iff]
    omega
  | xform sym =>
    have hlt := sym.isLt
    simp only [Instr.wellFormed, encode, cmdWord_toNat, BitVec.toNat_ofNat, true_iff]
    omega
  | finish ignored =>
    have hlt := ignored.isLt
    have hzero : ignored = 0 ↔ ignored.toNat = 0 := BitVec.toNat_inj.symm
    simp only [Instr.wellFormed, encode, cmdWord_toNat, beq_iff_eq, hzero, BitVec.toNat_ofNat]
    omega

/-- Settles O55: the two round trips word by word, the canonical ranges by the number of each command's word, and the
step by `step_withFetchWord`. -/
theorem decodingAndEncodingAgree : Obligations.DecodingAndEncodingAgree := by
  refine ⟨fun is => ?_, fun ws => ?_, wellFormed_iff_encode, fun s i hw => step_withFetchWord hw i⟩
  · rw [List.map_map]
    exact List.map_id'' decode_encode is
  · rw [List.map_map]
    exact List.map_id'' encode_decode ws

end Machine
end Sys2Proof
end

section
/-! PROOFS. What a well-formed configuration is (spec/00_scope.md rules R5 to R14). -/

namespace Sys2Proof.Machine

/-- Settles O1: `wellFormed_iff`, with each constraint of `Valid` written out. -/
theorem wellFormedConfigurationMeansTheConstraints : Obligations.WellFormedConfigurationMeansTheConstraints := by
  intro c
  rw [wellFormed_iff]
  constructor
  · rintro ⟨hA, hA', hN, hs, hs', hrotor, ⟨⟨hl, hr⟩, hinv⟩, hfix, hplug⟩
    refine ⟨hN, ⟨hA, hA'⟩, fun t ht => ?_, ⟨hl, hr, hinv⟩, hfix, fun t ht => ?_, hs, hs'⟩
    · obtain ⟨⟨hl, hr⟩, hinj⟩ := hrotor t ht
      exact ⟨hl, hr, hinj⟩
    · obtain ⟨⟨hl, hr⟩, hinv⟩ := hplug t ht
      exact ⟨hl, hr, hinv⟩
  · rintro ⟨hN, ⟨hA, hA'⟩, hrotor, ⟨hl, hr, hinv⟩, hfix, hplug, hs, hs'⟩
    refine ⟨hA, hA', hN, hs, hs', fun t ht => ?_, ⟨⟨hl, hr⟩, hinv⟩, hfix, fun t ht => ?_⟩
    · obtain ⟨hl, hr, hinj⟩ := hrotor t ht
      exact ⟨⟨hl, hr⟩, hinj⟩
    · obtain ⟨hl, hr, hinv⟩ := hplug t ht
      exact ⟨⟨hl, hr⟩, hinv⟩

/-- Tables of one length that read alike are one table. -/
theorem table_ext {A : Nat} {t u : List Byte} (ht : t.length = A) (hu : u.length = A)
    (h : ∀ k < A, readTable t k = readTable u k) : t = u := by
  refine List.ext_getElem (ht.trans hu.symm) fun k hkt hku => BitVec.eq_of_toNat_eq ?_
  rw [← readTable_of_lt hkt, ← readTable_of_lt hku]
  exact h k (ht ▸ hkt)

/-- A permutation has one left inverse, since every symbol is one of its entries. -/
theorem PermTable.leftInverse_unique {A : Nat} {t u v : List Byte} (h : PermTable A t) (hu : u.length = A)
    (hv : v.length = A) (hut : ∀ x < A, readTable u (readTable t x) = x)
    (hvt : ∀ x < A, readTable v (readTable t x) = x) : u = v := by
  refine table_ext hu hv fun y hy => ?_
  obtain ⟨x, hx, rfl⟩ := h.surj hy
  rw [hut x hx, hvt x hx]

/-- Settles O2: the inverse table inverts, and a permutation has one left inverse. -/
theorem inverseTableIsTheUniqueInverse : Obligations.InverseTableIsTheUniqueInverse := by
  intro c hw i hi
  have hc : Valid c := (wellFormed_iff c).1 hw
  have hperm : PermTable c.A (rotorTable c i) := hc.rotorTable hi
  have hlen : (rotorInvTable c i).length = c.A := (hperm.inverse hc.A_le).length
  have hinv : ∀ x < c.A, readTable (rotorInvTable c i) (readTable (rotorTable c i) x) = x :=
    fun x hx => readTable_inverse hperm hc.A_le hx
  exact ⟨hlen, hinv, fun u hu hut => hperm.leftInverse_unique hu hlen hut hinv⟩

/-- `POS_W` is the first width from 1 up that holds the alphabet; one is found, because `A <= 2^8`. -/
theorem posW_spec {c : Config} (hA : c.A ≤ 256) :
    1 ≤ c.posW ∧ c.A ≤ 2 ^ c.posW ∧ ∀ w, 1 ≤ w → c.A ≤ 2 ^ w → c.posW ≤ w := by
  cases hfind : (List.range' 1 8).find? fun w => decide (c.A ≤ 2 ^ w) with
  | none =>
    have h8 := List.find?_eq_none.1 hfind 8 (by decide)
    exact absurd hA (by simpa using h8)
  | some k =>
    have hk : c.posW = k := by rw [Config.posW, hfind, Option.getD_some]
    rw [List.find?_range'_eq_some] at hfind
    obtain ⟨hholds, hmem, hleast⟩ := hfind
    rw [hk]
    refine ⟨(List.mem_range'_1.1 hmem).1, by simpa using hholds, fun w hw hfits => Nat.le_of_not_lt fun hlt => ?_⟩
    have hnot := hleast w hw hlt
    simp only [Bool.not_eq_true', decide_eq_false_iff_not] at hnot
    exact hnot hfits

/-- Settles O3: `posW_spec`, and the invariant's bound on a counter. -/
theorem counterWidthIsLeastThatHoldsTheAlphabet : Obligations.CounterWidthIsLeastThatHoldsTheAlphabet := by
  refine ⟨fun c hw => posW_spec ((wellFormed_iff c).1 hw).A_le, fun s hi p hp => ?_⟩
  obtain ⟨_, hfits, _⟩ := posW_spec hi.valid.A_le
  exact Nat.lt_of_lt_of_le (hi.counterRange p hp) hfits

end Sys2Proof.Machine
end

section
/-! PROOFS. Frames of the commands (spec/20_memory.md rules R40, R42; spec/40_engine.md rule R88; spec/41_validator.md
rules R100, R101, R104), and the response of `FINISH`. -/

namespace Sys2Proof.Machine

/-- A command moves the counters by one step or not at all, but for `INIT`. -/
theorem exec_pos {i : Instr} {s s' : State} (h : exec i s = .next s') (hi : ∀ g, i ≠ .init g) :
    s'.pos = s.pos ∨ s'.pos = stepCounters s.cfg.A s.pos := by
  cases exec_cases h with
  | init g => exact absurd rfl (hi g)
  | finish g => exact .inl rfl
  | feedTerminated sym hf => exact .inl rfl
  | xformTerminated sym hf => exact .inl rfl
  | feedSymbol sym y hf he => exact .inr rfl
  | xformSymbol sym y hf he => exact .inr rfl
  | feedInvalid sym hf hp hb => exact .inr rfl
  | xformInvalid sym hf hp hb => exact .inr rfl

/-- A command other than `INIT` does not clear `FAULT`. -/
theorem exec_keeps_fault {i : Instr} {s s' : State} (h : exec i s = .next s') (hi : ∀ g, i ≠ .init g)
    (hf : s.fault = true) : s'.fault = true := by
  by_contra hf'
  obtain ⟨g, hg⟩ := init_of_exec_clears_fault h hf (by simpa using hf')
  exact hi g hg

/-- `XFORM` appends nothing. -/
theorem exec_xform_out {sym : Byte} {s s' : State} (h : exec (.xform sym) s = .next s') : s'.out = s.out := by
  cases exec_cases h <;> rfl

/-- `FEED` appends the data of its response exactly when `err = 0`. -/
theorem exec_feed_out {sym : Byte} {s s' : State} (h : exec (.feed sym) s = .next s') :
    ∃ r, s'.rsp = some r ∧ s'.out = if r.err then s.out else s.out ++ [r.data] := by
  cases exec_cases h with
  | feedTerminated _ hf => exact ⟨⟨true, sym⟩, rfl, rfl⟩
  | feedSymbol _ y hf he => exact ⟨⟨false, y⟩, rfl, rfl⟩
  | feedInvalid _ hf hp hb => exact ⟨⟨true, sym⟩, rfl, rfl⟩

/-- After a store at the end of `OUT` every other byte of every space reads as before. -/
theorem readByte_append {s t : State} (hc : t.cfg = s.cfg) {y : Byte} (ho : t.out = s.out ++ [y]) {sp : Space} {k : Nat}
    (h : ¬(sp = .out ∧ k = s.out.length)) : t.readByte sp k = s.readByte sp k := by
  by_cases hsp : sp = .out
  · subst hsp
    have hk : k ≠ s.out.length := fun e => h ⟨rfl, e⟩
    rw [readByte_out, readByte_out, ho]
    rcases Nat.lt_or_ge k s.out.length with hlt | hge
    · exact List.getElem?_append_left hlt
    · rw [List.getElem?_eq_none hge, List.getElem?_eq_none (by simp; omega)]
  · exact readByte_table hc hsp k

/-- Settles O14: neither command writes the configuration or `OUT`, off which every space is read. -/
theorem xformAndFinishStoreNothing : Obligations.XformAndFinishStoreNothing := by
  intro s s' i h
  refine ⟨?_, ?_⟩
  · rintro ⟨sym, rfl⟩
    exact ⟨exec_cfg h, exec_inputs h, readByte_congr (exec_cfg h) (exec_xform_out h), exec_pos h (by simp),
      exec_keeps_fault h (by simp)⟩
  · rintro ⟨g, rfl⟩
    rw [exec_finish] at h
    cases h
    exact ⟨rfl, rfl, readByte_congr rfl rfl, rfl, rfl⟩

/-- Settles O15: by the response, `FEED` leaves `OUT` as it was or longer by the response's data, and a longer `OUT`
reads as before below its end. -/
theorem feedStoresOnlyAtTheEndOfOut : Obligations.FeedStoresOnlyAtTheEndOfOut := by
  intro s s' sym h
  obtain ⟨r, hr, hout⟩ := exec_feed_out h
  refine ⟨exec_cfg h, exec_inputs h, exec_pos h (by simp), exec_keeps_fault h (by simp), r, hr, fun hok => ?_,
    fun herr => ?_⟩
  · have happ : s'.out = s.out ++ [r.data] := by simpa [hok] using hout
    refine ⟨?_, by simp [happ], fun sp k hne => readByte_append (exec_cfg h) happ hne⟩
    rw [readByte_out, happ, List.getElem?_concat_length]
  · exact readByte_congr (exec_cfg h) (by simpa [herr] using hout)

/-- Settles O16: `INIT` empties `OUT`, and every other space is read off the configuration. -/
theorem initDiscardsOnlyTheBuffer : Obligations.InitDiscardsOnlyTheBuffer := by
  intro s s' g h
  refine ⟨exec_cfg h, exec_inputs h, fun k => ?_, fun sp k hsp => readByte_table (exec_cfg h) hsp k⟩
  rw [exec_init] at h
  cases h
  exact List.getElem?_nil

/-- Settles O10: the equation of `FINISH`, whose verdict reads nothing that a first `FINISH` wrote. -/
theorem finishDeliversTheVerdict : Obligations.FinishDeliversTheVerdict := by
  intro s ignored
  refine ⟨exec_finish ignored s, fun s' again h => ?_⟩
  rw [exec_finish] at h
  cases h
  exact exec_finish again _

/-- Settles O56: a word's opcode says which command it decodes to, and neither command looks at its field. -/
theorem ignoredFieldChangesNothing : Obligations.IgnoredFieldChangesNothing := by
  refine fun s w => ⟨fun hop => ?_, fun hop => ?_⟩
  · rw [decode, if_pos hop, exec_init, exec_init]
  · have hw : decode w = .finish (symField w) := by simp [decode, hop]
    rw [hw, exec_finish, exec_finish]

/-- Settles O54: each word evaluated. -/
theorem writtenOutWordsDecode : Obligations.WrittenOutWordsDecode := by
  unfold Obligations.WrittenOutWordsDecode
  decide

end Sys2Proof.Machine
end

section
/-! PROOFS. What a step does (spec/30_encoding.md rule R63; spec/60_exceptions.md rules R120, R125, R127, R131, R132;
spec/70_reset_and_hazards.md rules R140, R144; spec/20_memory.md rule R51). -/

namespace Sys2Proof.Machine

open Host

/-- A step with a word on `CMD` and `RESET` low is the decoded command. -/
theorem step_command {s : State} (hw : s.cfg.wellFormed = true) {w : CmdWord} {rest : List PortInput}
    (h : s.inputs = ⟨some w, false⟩ :: rest) : step s = exec (decode w) { s with inputs := rest } :=
  step_port hw h

/-- Settles O18, by `step_command`. -/
theorem stepExecutesTheDecodedCommand : Obligations.StepExecutesTheDecodedCommand :=
  fun _ _ _ hw h => step_command hw h

/-- Settles O5: serving an input with `RESET` asserted looks at nothing else of it. -/
theorem resetPortGivesTheResetState : Obligations.ResetPortGivesTheResetState :=
  fun _ _ _ hw h => step_port hw h

/-- Settles O19: serving nothing, and serving an input that drives nothing, is `State.idle`. -/
theorem idleStepKeepsAllState : Obligations.IdleStepKeepsAllState :=
  fun _ hw => ⟨fun h => step_nothing hw h, fun _ h => step_port hw h⟩

/-- A block with a well-formed configuration goes on for any number of steps. -/
theorem run_total (n : Nat) {s : State} (hw : s.cfg.wellFormed = true) :
    ∃ s', Sys2Proof.core.run n s = .next s' := by
  induction n generalizing s with
  | zero => exact ⟨s, rfl⟩
  | succ n ih =>
    obtain ⟨t, ht, _⟩ := step_total hw
    rw [run_succ ht]
    exact ih (by rw [step_cfg ht]; exact hw)

/-- Settles O20: a well-formed configuration goes on, an ill-formed one is refused. -/
theorem wellFormedBlockNeverStops : Obligations.WellFormedBlockNeverStops := by
  refine ⟨fun s => ⟨fun h => ?_, step_refused⟩, fun n s => run_total n⟩
  rw [← Bool.not_eq_true]
  intro hw
  obtain ⟨t, ht, _⟩ := step_total hw
  rw [ht] at h
  cases h

/-- Settles O21: of the cases of a step only the command answers, and each consumes the head of the inputs. -/
theorem oneResponsePerCommand : Obligations.OneResponsePerCommand := by
  intro s s' h
  cases step_cases h with
  | quiet hin => simp [hin]
  | pause rest hin => simp [hin]
  | reset cmd rest hin => simp [hin]
  | command w rest _ hin hx =>
    have hinputs : s'.inputs = rest := exec_inputs hx
    simp [hin, hinputs, exec_rsp hx]

/-- Settles O22: `run_withCommands`, and `execAll_append` for the longer list. -/
theorem portRunsCommandsInIssueOrder : Obligations.PortRunsCommandsInIssueOrder := by
  intro is s hw
  obtain ⟨s', hall, _, _⟩ := execAll_total is { s with inputs := [] }
  exact ⟨s', hall, (run_withCommands hw is).trans hall, execAll_append hall⟩

/-! What restarts the engine, and what a step does to `FAULT` and `OUT`. -/

/-- A port input that restarts the engine: `RESET` asserted, or a word that decodes to `INIT`. -/
def PortInput.Restarts (p : PortInput) : Prop := p.reset = true ∨ ∃ w g, p.cmd = some w ∧ decode w = .init g

/-- A step on such an input leaves a running engine. -/
theorem step_restarts {s s' : State} (h : step s = .next s') {p : PortInput} {rest : List PortInput}
    (hin : s.inputs = p :: rest) (hp : p.Restarts) : s'.fault = false := by
  cases step_cases h with
  | quiet hq => simp [hq] at hin
  | pause _ hq =>
    obtain ⟨rfl, _⟩ := List.cons.inj (hq.symm.trans hin)
    simp [PortInput.Restarts] at hp
  | reset _ _ _ => rfl
  | command w _ _ hq hx =>
    obtain ⟨rfl, _⟩ := List.cons.inj (hq.symm.trans hin)
    obtain ⟨g, hg⟩ : ∃ g, decode w = .init g := by simpa [PortInput.Restarts] using hp
    rw [hg, exec_init] at hx
    cases hx
    rfl

/-- From a faulted state only a restart clears `FAULT`. -/
theorem restarts_of_step_clears_fault {s s' : State} (h : step s = .next s') (hf : s.fault = true)
    (hf' : s'.fault = false) : ∃ p rest, s.inputs = p :: rest ∧ p.Restarts := by
  cases step_cases h with
  | quiet _ => exact absurd (hf.symm.trans hf') (by decide)
  | pause _ _ => exact absurd (hf.symm.trans hf') (by decide)
  | reset cmd rest hin => exact ⟨_, rest, hin, .inl rfl⟩
  | command w rest _ hin hx =>
    obtain ⟨g, hg⟩ := init_of_exec_clears_fault hx hf hf'
    exact ⟨_, rest, hin, .inr ⟨w, g, rfl, hg⟩⟩

/-- A command that leaves a faulted state faulted moves no counter and stores nothing. -/
theorem exec_terminated_frame {i : Instr} {s s' : State} (h : exec i s = .next s') (hf : s.fault = true)
    (hf' : s'.fault = true) : s'.pos = s.pos ∧ s'.out = s.out := by
  cases exec_cases h with
  | init g => exact absurd hf' Bool.false_ne_true
  | finish g => exact ⟨rfl, rfl⟩
  | feedTerminated sym _ => exact ⟨rfl, rfl⟩
  | xformTerminated sym _ => exact ⟨rfl, rfl⟩
  | feedSymbol sym y hr _ => exact absurd hf (by simp [hr])
  | xformSymbol sym y hr _ => exact absurd hf (by simp [hr])
  | feedInvalid sym hr _ _ => exact absurd hf (by simp [hr])
  | xformInvalid sym hr _ _ => exact absurd hf (by simp [hr])

/-- And so does a step. -/
theorem step_terminated_frame {s s' : State} (h : step s = .next s') (hf : s.fault = true) (hf' : s'.fault = true) :
    s'.pos = s.pos ∧ s'.out = s.out := by
  cases step_cases h with
  | quiet _ => exact ⟨rfl, rfl⟩
  | pause _ _ => exact ⟨rfl, rfl⟩
  | reset _ _ _ => exact absurd hf' Bool.false_ne_true
  | command w rest _ _ hx => exact exec_terminated_frame (s := { s with inputs := rest }) hx hf hf'

/-- Settles O26: only a restart clears `FAULT`, every restart does, and what leaves it set leaves the run frozen. -/
theorem onlyInitAndResetLeaveTheFaultedState : Obligations.OnlyInitAndResetLeaveTheFaultedState :=
  fun _ _ h hf =>
    ⟨⟨restarts_of_step_clears_fault h hf, fun ⟨_, _, hin, hp⟩ => step_restarts h hin hp⟩, step_terminated_frame h hf⟩

/-- A `FEED` or `XFORM` of a byte outside the alphabet raises, under the `FAULT` policy. -/
theorem exec_invalidSymbol {i : Instr} {sym : Byte} {s s' : State} (hi : i = .feed sym ∨ i = .xform sym)
    (hf : s.fault = false) (hp : s.cfg.invalidPolicy = .fault) (hb : s.cfg.A ≤ sym.toNat)
    (h : exec i s = .next s') : s'.fault = true := by
  have he := engineResult_fault hb hp (stepCounters s.cfg.A s.pos)
  obtain rfl | rfl := hi
  · rw [exec_feed_invalid hf he] at h
    cases h
    rfl
  · rw [exec_xform_invalid hf he] at h
    cases h
    rfl

/-- Settles O27: of the cases of a step only a command can raise, and it does so by `InvalidSymbol`. -/
theorem faultIsRaisedExactlyByInvalidSymbol : Obligations.FaultIsRaisedExactlyByInvalidSymbol := by
  intro s s' h hf
  constructor
  · intro hf'
    cases step_cases h with
    | quiet _ => exact absurd (hf.symm.trans hf') (by decide)
    | pause _ _ => exact absurd (hf.symm.trans hf') (by decide)
    | reset _ _ _ => exact absurd hf' Bool.false_ne_true
    | command w rest _ hin hx =>
      obtain ⟨sym, hi, hp, hb⟩ := invalidSymbol_of_exec_sets_fault hx hf hf'
      exact ⟨hp, w, sym, rest, hin, hi, hb⟩
  · rintro ⟨hp, w, sym, rest, hin, hi, hb⟩
    rw [step_command (step_wellFormed h) hin] at h
    exact exec_invalidSymbol (s := { s with inputs := rest }) hi hf hp hb h

/-- What a command does to the buffer: nothing, an append by `FEED`, or emptying by `INIT`. -/
theorem exec_out_cases {i : Instr} {s s' : State} (h : exec i s = .next s') :
    s'.out = s.out ∨ (∃ y, s'.out = s.out ++ [y] ∧ ∃ sym, i = .feed sym) ∨ (s'.out = [] ∧ ∃ g, i = .init g) := by
  cases exec_cases h with
  | init g => exact .inr (.inr ⟨rfl, g, rfl⟩)
  | finish g => exact .inl rfl
  | feedTerminated sym _ => exact .inl rfl
  | xformTerminated sym _ => exact .inl rfl
  | feedSymbol sym y _ _ => exact .inr (.inl ⟨y, rfl, sym, rfl⟩)
  | xformSymbol sym y _ _ => exact .inl rfl
  | feedInvalid sym _ _ _ => exact .inl rfl
  | xformInvalid sym _ _ _ => exact .inl rfl

/-- What a step does to the buffer: nothing, an append by `FEED`, or emptying by a restart. -/
theorem step_out_cases {s s' : State} (h : step s = .next s') :
    s'.out = s.out ∨
    (∃ y, s'.out = s.out ++ [y] ∧ ∃ w sym rest, s.inputs = ⟨some w, false⟩ :: rest ∧ decode w = .feed sym) ∨
    (s'.out = [] ∧ ∃ p rest, s.inputs = p :: rest ∧ p.Restarts) := by
  cases step_cases h with
  | quiet _ => exact .inl rfl
  | pause _ _ => exact .inl rfl
  | reset cmd rest hin => exact .inr (.inr ⟨rfl, _, rest, hin, .inl rfl⟩)
  | command w rest _ hin hx =>
    obtain hsame | ⟨y, happ, sym, hi⟩ | ⟨hnil, g, hi⟩ := exec_out_cases hx
    · exact .inl hsame
    · exact .inr (.inl ⟨y, happ, w, sym, rest, hin, hi⟩)
    · exact .inr (.inr ⟨hnil, _, rest, hin, .inr ⟨w, g, rfl, hi⟩⟩)

/-- Settles O31: the three cases of `step_out_cases`, of which only the append lengthens the buffer. -/
theorem bufferIsAppendOnly : Obligations.BufferIsAppendOnly := by
  intro s s' h
  obtain hsame | ⟨y, happ, hfeed⟩ | ⟨hnil, hrestart⟩ := step_out_cases h
  · exact ⟨.inl hsame, fun ⟨y, happ⟩ => absurd (hsame.symm.trans happ) (by simp)⟩
  · exact ⟨.inr (.inl ⟨y, happ⟩), fun _ => hfeed⟩
  · exact ⟨.inr (.inr ⟨hnil, hrestart⟩), fun ⟨y, happ⟩ => absurd (hnil.symm.trans happ) (by simp)⟩

end Sys2Proof.Machine
end

section
/-! PROOFS. What a command does not look at (spec/10_state.md rule R30; spec/41_validator.md rule R106;
spec/00_scope.md rule R12). -/

namespace Sys2Proof.Machine

/-- With 256 symbols every byte is in domain, so the engine does not look at the policy. -/
theorem engineResult_fullAlphabet {c : Config} (hA : c.A = 256) (p : InvalidPolicy) (pos : List Nat) (b : Byte) :
    engineResult { c with invalidPolicy := p } pos b = engineResult c pos b := by
  have hb : b.toNat < c.A := hA ▸ b.isLt
  rw [engineResult_inDomain (c := { c with invalidPolicy := p }) hb, engineResult_inDomain hb,
    subst_congr (c := { c with invalidPolicy := p }) (d := c) rfl rfl rfl rfl]

/-- The same block with another policy. -/
def State.withPolicy (p : InvalidPolicy) (s : State) : State := { s with cfg := { s.cfg with invalidPolicy := p } }

/-- With 256 symbols a command does the same under every policy: the cases that raise do not occur. -/
theorem exec_withPolicy {i : Instr} {s s' : State} (hA : s.cfg.A = 256) (p : InvalidPolicy)
    (h : exec i s = .next s') : exec i (s.withPolicy p) = .next (s'.withPolicy p) := by
  cases exec_cases h with
  | init g => rfl
  | finish g => rfl
  | feedTerminated sym hf => exact exec_feed_terminated (s := s.withPolicy p) hf sym
  | xformTerminated sym hf => exact exec_xform_terminated (s := s.withPolicy p) hf sym
  | feedSymbol sym y hf he =>
    exact exec_feed_symbol (s := s.withPolicy p) hf ((engineResult_fullAlphabet hA p _ sym).trans he)
  | xformSymbol sym y hf he =>
    exact exec_xform_symbol (s := s.withPolicy p) hf ((engineResult_fullAlphabet hA p _ sym).trans he)
  | feedInvalid sym _ _ hb => exact absurd sym.isLt (by omega)
  | xformInvalid sym _ _ hb => exact absurd sym.isLt (by omega)

/-- Settles O30, by `exec_withPolicy`: no command writes the configuration. -/
theorem fullAlphabetMakesThePoliciesAgree : Obligations.FullAlphabetMakesThePoliciesAgree := by
  rintro s p c i hA rfl
  obtain ⟨s', h, _⟩ := exec_total i s
  refine ⟨s', h, ?_⟩
  refine (exec_withPolicy hA p h).trans ?_
  rw [State.withPolicy, exec_cfg h]

/-- Settles O32: the two states differ in the ports alone, which a command does not look at. -/
theorem responseDependsOnlyOnConfigurationAndState : Obligations.ResponseDependsOnlyOnConfigurationAndState := by
  intro s t i hcfg hpos hout hfault hverdict
  obtain ⟨t', ht, _⟩ := exec_total i t
  have hs : s = { t with inputs := s.inputs, rsp := s.rsp } := by
    obtain ⟨⟩ := s
    obtain ⟨⟩ := t
    simp_all
  refine ⟨_, t', ?_, ht, rfl, exec_inputs ht⟩
  rw [hs]
  exact exec_ports ht s.inputs s.rsp

/-- Two states that only the comparison can tell apart: they agree on the configuration but `EXPECTED`, which is `e` in
the first, on the counters, on `FAULT` and on the last response. -/
structure SameEngine (e : List Byte) (s t : State) : Prop where
  cfg   : s.cfg = { t.cfg with expected := e }
  pos   : s.pos = t.pos
  fault : s.fault = t.fault
  rsp   : s.rsp = t.rsp

/-- The engine answers alike in such states. -/
theorem SameEngine.engineResult {e : List Byte} {s t : State} (h : SameEngine e s t) (sym : Byte) :
    engineResult s.cfg (stepCounters s.cfg.A s.pos) sym = engineResult t.cfg (stepCounters t.cfg.A t.pos) sym := by
  rw [h.cfg, h.pos]
  exact engineResult_congr (c := { t.cfg with expected := e }) (d := t.cfg) rfl rfl rfl rfl rfl _ _

/-- `FEED` keeps them so. -/
theorem SameEngine.feed {e : List Byte} {s t : State} (h : SameEngine e s t) (sym : Byte) :
    ∃ s' t', exec (.feed sym) s = .next s' ∧ exec (.feed sym) t = .next t' ∧ SameEngine e s' t' := by
  have hpos : stepCounters s.cfg.A s.pos = stepCounters t.cfg.A t.pos := by rw [h.cfg, h.pos]
  have hres := h.engineResult sym
  obtain ⟨t', ht, hcase⟩ := exec_total (.feed sym) t
  cases hcase with
  | feedTerminated _ hf =>
    exact ⟨_, _, exec_feed_terminated (h.fault.trans hf) sym, ht, h.cfg, h.pos, h.fault, rfl⟩
  | feedSymbol _ y hf he =>
    exact ⟨_, _, exec_feed_symbol (h.fault.trans hf) (hres.trans he), ht, h.cfg, hpos, h.fault, rfl⟩
  | feedInvalid _ hf hp hb =>
    exact ⟨_, _, exec_feed_invalid (h.fault.trans hf) (hres.trans (engineResult_fault hb hp _)), ht, h.cfg, hpos, rfl,
      rfl⟩

/-- Settles O33, by induction over the symbols with `SameEngine.feed` for each. -/
theorem feedIgnoresTheComparison : Obligations.FeedIgnoresTheComparison := by
  intro b
  induction b with
  | nil => exact fun s t _ _ hpos hfault hrsp => ⟨s, t, rfl, rfl, hrsp, hpos, hfault⟩
  | cons x b ih =>
    intro s t e hcfg hpos hfault hrsp
    obtain ⟨s₁, t₁, hs, ht, h⟩ := SameEngine.feed ⟨hcfg, hpos, hfault, hrsp⟩ x
    obtain ⟨s', t', hs', ht', hend⟩ := ih s₁ t₁ e h.cfg h.pos h.fault h.rsp
    exact ⟨s', t', (execAll_cons hs _).trans hs', (execAll_cons ht _).trans ht', hend⟩

end Sys2Proof.Machine
end

section
/-! PROOFS. The closed form of the stepping rule and the offset arithmetic (spec/40_engine.md rules R81, R91). -/

namespace Sys2Proof.Machine

/-- The states `j` and `j + k` steps on are one exactly when `A^N` divides `k`: the counters are the digits of a value
that counts modulo `A^N`. -/
theorem stepTimes_add_eq_iff {A : Nat} {pos : List Nat} (h : ∀ p ∈ pos, p < A) (j k : Nat) :
    stepTimes A (j + k) pos = stepTimes A j pos ↔ A ^ pos.length ∣ k := by
  have hvalue : stepTimes A (j + k) pos = stepTimes A j pos ↔
      counterValue A (stepTimes A (j + k) pos) = counterValue A (stepTimes A j pos) :=
    ⟨fun e => by rw [e], counterValue_inj (stepTimes_range _ h) (stepTimes_range _ h) (by simp)⟩
  rw [hvalue, counterValue_stepTimes _ h, counterValue_stepTimes _ h, ← Nat.add_assoc]
  exact Nat.add_modEq_left_iff

/-- Settles O35: `STEP` adds 1 to the value and `k` steps add `k`, and counters of one value are one list. -/
theorem steppingCountsModuloThePower : Obligations.SteppingCountsModuloThePower := by
  intro A pos h
  have hstep := counterValue_stepCounters h
  refine ⟨hstep, fun pos' hlen hrange hvalue => ?_, fun k => counterValue_stepTimes k h, stepTimes_add_eq_iff h⟩
  exact counterValue_inj hrange (stepCounters_range h) (by simp [hlen]) (hvalue.trans hstep.symm)

/-- Offset removal without the case split: `A` added before the subtraction. -/
theorem subOffset_eq_mod {A t p : Nat} (ht : t < A) (hp : p < A) : subOffset A t p = (t + A - p) % A := by
  rw [subOffset_eq ht hp]
  split
  · rw [show t + A - p = t - p + A by omega, Nat.add_mod_right, Nat.mod_eq_of_lt (by omega)]
  · rw [Nat.mod_eq_of_lt (by omega)]

/-- Offset removal answers the representative of the difference (rule R16). -/
theorem dvd_sub_subOffset {A : Nat} (hA : 0 < A) (t p : Nat) : (A : Int) ∣ ((t : Int) - p) - subOffset A t p := by
  rw [subOffset, Int.toNat_of_nonneg (Int.emod_nonneg _ (by omega))]
  exact Int.dvd_self_sub_of_emod_eq rfl

/-- Settles O42: at most one correction, the representative of the difference, and the 8-bit case. -/
theorem offsetArithmeticNeedsOneCorrection : Obligations.OffsetArithmeticNeedsOneCorrection := by
  refine ⟨fun A x p hx hp => ?_, fun A t p hA => ⟨dvd_sub_subOffset hA t p, subOffset_lt hA⟩, fun x p => ?_⟩
  · have hA : 0 < A := by omega
    exact ⟨addOffset_eq hx hp, subOffset_eq hx hp, addOffset_lt hA, subOffset_lt hA⟩
  · refine ⟨(BitVec.toNat_add x p).symm, ?_⟩
    have hp := p.isLt
    rw [subOffset_eq_mod x.isLt hp, BitVec.toNat_sub]
    congr 1
    omega

end Sys2Proof.Machine
end

section
/-! PROOFS. The stages and the properties of `SUBST` (spec/40_engine.md rules R82 to R90). -/

namespace Sys2Proof.Machine

/-- A read at a symbol of the alphabet is one of the table's entries. -/
theorem InAlphabet.entry {A : Nat} {t : List Byte} (h : InAlphabet A t) {k : Nat} (hk : k < A) :
    ∃ v ∈ t[k]?, readTable t k = v.toNat := by
  have hkt : k < t.length := h.length ▸ hk
  exact ⟨t[k], by simp [hkt], readTable_of_lt hkt⟩

/-- The lookup of a rotor stage with its entry written out (rules R83, R84). -/
theorem offsetLookup_entry {A : Nat} {t : List Byte} (h : InAlphabet A t) (x : Nat) {p : Nat} (hp : p < A) :
    ∃ v ∈ t[(x + p) % A]?, offsetLookup A t p x = (v.toNat + A - p) % A := by
  have hk : (x + p) % A < A := Nat.mod_lt _ (by omega)
  obtain ⟨v, hv, hread⟩ := h.entry hk
  refine ⟨v, hv, ?_⟩
  rw [← hread]
  exact subOffset_eq_mod (h.range _ hk) hp

/-- Settles O36: each stage reads the entry its rule names, and the return stage undoes the forward stage. -/
theorem stagesComputeTheStatedLookups : Obligations.StagesComputeTheStatedLookups := by
  intro c pos x hw hlen hrange hx
  have hc : Valid c := (wellFormed_iff c).1 hw
  refine ⟨fun t ht => ?_, fun hnone => by rw [plugStage, hnone], hc.refl.entry hx, fun i hi => ?_⟩
  · rw [plugStage, ht]
    exact (hc.plug t ht).entry hx
  · have hip : i < pos.length := hlen ▸ hi
    have hir : i < c.rotor.length := hi
    have hp : counter pos i < c.A := counter_lt hc.A_pos hrange i
    have hperm : PermTable c.A (rotorTable c i) := hc.rotorTable hi
    refine ⟨counter pos i, by simp [counter_of_lt hip, hip], ⟨rotorTable c i, by simp [rotorTable, hir], ?_⟩, ?_,
      retStage_fwdStage hc ⟨hlen, hrange⟩ hi hx⟩
    · exact offsetLookup_entry hperm.toInAlphabet x hp
    · exact offsetLookup_entry (hperm.inverse hc.A_le).toInAlphabet x hp

/-- Settles O38: `subst_subst`; so `SUBST(y)` is the one symbol that `SUBST` takes to `y`. -/
theorem substIsAnInvolution : Obligations.SubstIsAnInvolution := by
  intro c pos hw hlen hrange
  have hc : Valid c := (wellFormed_iff c).1 hw
  have hinv : ∀ x < c.A, subst c pos (subst c pos x) = x := fun x hx => subst_subst hc ⟨hlen, hrange⟩ hx
  refine ⟨fun x hx => ⟨subst_lt hc pos hx, hinv x hx⟩, fun y hy => ?_⟩
  refine ⟨subst c pos y, subst_lt hc pos hy, hinv y hy, ?_⟩
  rintro x' hx' rfl
  exact (hinv x' hx').symm

/-- `F` carries `SUBST` to the reflector (rule R89 item 2). -/
theorem frontHalf_subst {c : Config} (h : Valid c) {pos : List Nat} (hpos : PosOk c pos) {x : Nat} (hx : x < c.A) :
    frontHalf c pos (subst c pos x) = reflStage c (frontHalf c pos x) := by
  rw [subst_eq, frontHalf_backHalf h hpos (reflStage_lt h (frontHalf_lt h pos hx))]

/-- So the fixed points of the one are those of the other (rule R89 item 3). -/
theorem subst_eq_self_iff {c : Config} (h : Valid c) {pos : List Nat} (hpos : PosOk c pos) {x : Nat} (hx : x < c.A) :
    subst c pos x = x ↔ reflStage c (frontHalf c pos x) = frontHalf c pos x := by
  constructor
  · intro hfix
    rw [← frontHalf_subst h hpos hx, hfix]
  · intro hfix
    rw [subst_eq, hfix, backHalf_frontHalf h hpos hx]

/-- Settles O39: the fixed points by `subst_eq_self_iff`, and `F^-1` for the symbol behind a fixed point of the
reflector. -/
theorem substFixesExactlyWhatTheReflectorFixes : Obligations.SubstFixesExactlyWhatTheReflectorFixes := by
  intro c pos hw hlen hrange F
  have hc : Valid c := (wellFormed_iff c).1 hw
  have hpos : PosOk c pos := ⟨hlen, hrange⟩
  have hiff : ∀ x < c.A, subst c pos x = x ↔ reflStage c (F x) = F x := fun x hx => subst_eq_self_iff hc hpos hx
  refine ⟨hiff, fun hflag x hx hfix => ?_, fun u hu hfix => ?_⟩
  · exact hc.refl_fixed hflag (F x) (frontHalf_lt hc pos hx) ((hiff x hx).1 hfix)
  · have hF : F (backHalf c pos u) = u := frontHalf_backHalf hc hpos hu
    have hlt : backHalf c pos u < c.A := backHalf_lt hc pos hu
    exact ⟨backHalf c pos u, hlt, hF, (hiff _ hlt).2 (by rw [hF, hfix])⟩

/-- The answer of `TRANSFORM` under `PASS`: the substitution on the alphabet, the byte itself outside it. -/
def passAnswer (c : Config) (pos : List Nat) (b : Byte) : Byte :=
  if b.toNat < c.A then symbolByte (subst c pos b.toNat) else b

theorem transform_pass {s : State} (hp : s.cfg.invalidPolicy = .pass) (b : Byte) :
    (transform b s).2 = ⟨false, passAnswer s.cfg (stepCounters s.cfg.A s.pos) b⟩ := by
  by_cases hb : b.toNat < s.cfg.A
  · rw [transform_symbol (engineResult_inDomain hb _), passAnswer, if_pos hb]
  · rw [transform_symbol (engineResult_pass (Nat.le_of_not_lt hb) hp _), passAnswer, if_neg hb]

/-- The answer is an involution of the bytes, on the alphabet because `SUBST` is one. -/
theorem passAnswer_involutive {c : Config} (h : Valid c) {pos : List Nat} (hpos : PosOk c pos) :
    Function.Involutive (passAnswer c pos) := by
  intro b
  by_cases hb : b.toNat < c.A
  · have hlt : subst c pos b.toNat < c.A := subst_lt h pos hb
    have hbyte : (symbolByte (subst c pos b.toNat)).toNat = subst c pos b.toNat :=
      symbolByte_toNat (Nat.lt_of_lt_of_le hlt h.A_le)
    rw [passAnswer, passAnswer, if_pos hb, hbyte, if_pos hlt, subst_subst h hpos hb]
    exact BitVec.eq_of_toNat_eq (symbolByte_toNat b.isLt)
  · simp only [passAnswer, if_neg hb]

/-- Settles O40: an involution is a bijection. -/
theorem transformUnderPassIsABijection : Obligations.TransformUnderPassIsABijection := by
  intro s hw hlen hrange hp
  have hpos : PosOk s.cfg s.pos := ⟨hlen, hrange⟩
  simp only [transform_pass hp]
  exact ⟨(passAnswer_involutive ((wellFormed_iff _).1 hw) hpos.step).bijective, fun _ => trivial⟩

/-- With two symbols or more, a step moves the first counter. -/
theorem counter_zero_stepCounters_ne {A : Nat} {pos : List Nat} (hA : 2 ≤ A) (hne : pos ≠ []) :
    counter (stepCounters A pos) 0 ≠ counter pos 0 := by
  rw [counter_stepCounters A (List.length_pos_of_ne_nil hne), if_pos (by simp)]
  split <;> omega

/-- A rotor that rotates the alphabet by `k` does so at every position: the offset added and the rotation commute. -/
theorem fwdStage_rotation {c : Config} {pos : List Nat} {i k x : Nat} (hp : counter pos i < c.A)
    (hrot : ∀ z < c.A, readTable (rotorTable c i) z = (z + k) % c.A) : fwdStage c pos i x = (x + k) % c.A := by
  have hA : 0 < c.A := by omega
  have hcomm : ((x + counter pos i) % c.A + k) % c.A = addOffset c.A ((x + k) % c.A) (counter pos i) := by
    rw [addOffset, Nat.mod_add_mod, Nat.mod_add_mod, Nat.add_right_comm]
  rw [fwdStage, offsetLookup, hrot _ (addOffset_lt hA), addOffset, hcomm,
    subOffset_addOffset (Nat.mod_lt _ hA) hp]

/-- Settles O41: the first counter moves, `A^N` steps come back, a rotation commutes with the offset, and an alphabet
of one symbol leaves one answer. -/
theorem whenConsecutiveCallsCoincide : Obligations.WhenConsecutiveCallsCoincide := by
  refine ⟨fun A pos hA hne hrange => ⟨counter_zero_stepCounters_ne hA hne, fun k => ?_⟩,
    fun c pos i k x hw _ hrange _ _ hrot => ?_, fun c pos hw hA => ?_⟩
  · exact (stepTimes_add_eq_iff hrange k _).2 (Nat.dvd_refl _)
  · exact fwdStage_rotation (counter_lt ((wellFormed_iff c).1 hw).A_pos hrange i) hrot
  · have hlt := subst_lt ((wellFormed_iff c).1 hw) pos (x := 0) (by omega)
    omega

end Sys2Proof.Machine
end

section
/-! PROOFS. The address spaces and the table reads of one `TRANSFORM` (spec/20_memory.md rules R40, R41, R49). -/

namespace Sys2Proof.Machine

/-- A space has the locations below its length. -/
theorem readByte_isSome (s : State) (sp : Space) (k : Nat) :
    (s.readByte sp k).isSome = decide (k < (s.spaceBytes sp).length) :=
  getElem?_isSome_eq _ k

theorem spaceBytes_rotor {s : State} (h : Valid s.cfg) {i : Nat} (hi : i < s.cfg.N) :
    InAlphabet s.cfg.A (s.spaceBytes (.rotor i)) :=
  (h.rotorTable hi).toInAlphabet

theorem spaceBytes_rotorInv {s : State} (h : Valid s.cfg) {i : Nat} (hi : i < s.cfg.N) :
    InAlphabet s.cfg.A (s.spaceBytes (.rotorInv i)) :=
  ((h.rotorTable hi).inverse h.A_le).toInAlphabet

theorem spaceBytes_refl {s : State} (h : Valid s.cfg) : InAlphabet s.cfg.A (s.spaceBytes .refl) :=
  h.refl.toInAlphabet

theorem spaceBytes_plug {s : State} (h : Valid s.cfg) (hp : s.cfg.plugPresent = true) :
    InAlphabet s.cfg.A (s.spaceBytes .plug) := by
  obtain ⟨t, ht⟩ := Option.isSome_iff_exists.1 hp
  rw [State.spaceBytes, ht]
  exact (h.plug t ht).toInAlphabet

theorem spaceBytes_plug_absent {s : State} (hp : s.cfg.plugPresent = false) : s.spaceBytes .plug = [] := by
  have hnone : s.cfg.plug = none := by simpa [Config.plugPresent] using hp
  rw [State.spaceBytes, hnone, Option.getD_none]

/-- A start value is stored as the byte it is. -/
theorem spaceBytes_start_lt {s : State} (h : Valid s.cfg) {v : Byte} (hv : v ∈ s.spaceBytes .start) :
    v.toNat < s.cfg.A := by
  obtain ⟨p, hp, rfl⟩ := List.mem_map.1 hv
  have hlt : p < s.cfg.A := h.start_range p hp
  rwa [symbolByte_toNat (Nat.lt_of_lt_of_le hlt h.A_le)]

/-- Every byte of a space of symbols is a symbol. -/
theorem spaceBytes_lt {s : State} (h : Valid s.cfg) {sp : Space} (ho : sp ≠ .out) (he : sp ≠ .expected)
    (hi : ∀ i, sp = .rotor i ∨ sp = .rotorInv i → i < s.cfg.N) {v : Byte} (hv : v ∈ s.spaceBytes sp) :
    v.toNat < s.cfg.A := by
  cases sp with
  | rotor i => exact (spaceBytes_rotor h (hi i (.inl rfl))).mem hv
  | rotorInv i => exact (spaceBytes_rotorInv h (hi i (.inr rfl))).mem hv
  | refl => exact (spaceBytes_refl h).mem hv
  | plug =>
    cases hp : s.cfg.plugPresent with
    | true => exact (spaceBytes_plug h hp).mem hv
    | false => exact absurd hv (by simp [spaceBytes_plug_absent hp])
  | start => exact spaceBytes_start_lt h hv
  | expected => exact absurd rfl he
  | out => exact absurd rfl ho

/-- Settles O44: the lengths and the entries of the spaces, space by space. -/
theorem spacesHaveTheStatedLocations : Obligations.SpacesHaveTheStatedLocations := by
  intro s hw
  have hc : Valid s.cfg := (wellFormed_iff _).1 hw
  refine ⟨fun i hi k => ?_, fun i hi k => ?_, fun k => ?_, fun k => ?_, fun k => ?_, fun k => ?_, fun k => ?_,
    fun sp ho he hi k v hv => spaceBytes_lt hc ho he hi (List.mem_of_getElem? hv)⟩
  · rw [readByte_isSome, (spaceBytes_rotor hc hi).length]
  · rw [readByte_isSome, (spaceBytes_rotorInv hc hi).length]
  · rw [readByte_isSome, (spaceBytes_refl hc).length]
  · cases hp : s.cfg.plugPresent with
    | true => rw [readByte_isSome, (spaceBytes_plug hc hp).length, Bool.true_and]
    | false => rw [readByte_isSome, spaceBytes_plug_absent hp]; rfl
  · rw [readByte_isSome, State.spaceBytes, List.length_map, hc.start_length]
  · exact readByte_isSome s .expected k
  · exact readByte_isSome s .out k

/-- The spaces `SUBST` reads, in order (rule R49). -/
def readSpaces (c : Config) : List Space :=
  let plugs := if c.plugPresent then [Space.plug] else []
  plugs ++ (List.range c.N).map Space.rotor ++ [Space.refl] ++ (List.range c.N).reverse.map Space.rotorInv ++ plugs

theorem substReads_spaces (c : Config) (pos : List Nat) (x : Nat) :
    (substReads c pos x).1.map Access.space = readSpaces c := by
  simp only [substReads, readSpaces, List.map_append, plugRead_spaces, forwardReads_spaces, returnReads_spaces,
    List.map_cons, List.map_nil]

theorem readSpaces_length (c : Config) : (readSpaces c).length = 2 * c.N + if c.plugPresent then 3 else 1 := by
  cases hp : c.plugPresent <;> simp [readSpaces, hp] <;> omega

/-- Each of them is a table of the alphabet. -/
theorem inAlphabet_of_mem_readSpaces {s : State} (h : Valid s.cfg) {sp : Space} (hsp : sp ∈ readSpaces s.cfg) :
    InAlphabet s.cfg.A (s.spaceBytes sp) := by
  simp only [readSpaces, List.mem_append, List.mem_map, List.mem_reverse, List.mem_range, List.mem_singleton,
    List.mem_ite_nil_right] at hsp
  obtain (((⟨hp, rfl⟩ | ⟨i, hi, rfl⟩) | rfl) | ⟨i, hi, rfl⟩) | ⟨hp, rfl⟩ := hsp
  · exact spaceBytes_plug h hp
  · exact spaceBytes_rotor h hi
  · exact spaceBytes_refl h
  · exact spaceBytes_rotorInv h hi
  · exact spaceBytes_plug h hp

/-- Every read of `SUBST` on a symbol is at a symbol. -/
theorem substReads_index {c : Config} (h : Valid c) (pos : List Nat) {x : Nat} (hx : x < c.A) :
    ∀ a ∈ (substReads c pos x).1, a.index < c.A := by
  have hplug : plugStage c x < c.A := plugStage_lt h hx
  have hfwd : forwardPass c pos c.N (plugStage c x) < c.A := forwardPass_lt h pos c.N hplug
  have hret := returnPass_lt h pos c.N (reflStage_lt h hfwd)
  simp only [substReads, plugRead_value, forwardReads_value, returnReads_value, List.mem_append, List.mem_singleton]
  rintro a ((((ha | ha) | rfl) | ha) | ha)
  · exact plugRead_index hx a ha
  · exact forwardReads_index h.A_pos pos c.N _ a ha
  · exact hfwd
  · exact returnReads_index h.A_pos pos c.N _ a ha
  · exact plugRead_index hret a ha

/-- Settles O43: the reads of `SUBST` carry its value, and go to the spaces of `readSpaces`, each at a symbol of the
alphabet, where a table has an entry. -/
theorem transformReadsTheTablesInOrder : Obligations.TransformReadsTheTablesInOrder := by
  intro s b hw _ _
  have hc : Valid s.cfg := (wellFormed_iff _).1 hw
  have hspaces := substReads_spaces s.cfg s.pos b.toNat
  refine ⟨fun hb => ?_, fun hb => ?_⟩
  · rw [transformReads, (inDomain_false_iff _ b).2 hb]
    rfl
  · simp only [transformReads, (inDomain_iff _ b).2 hb, if_true]
    refine ⟨substReads_value _ _ _, hspaces, ?_, fun a ha => ?_⟩
    · rw [← readSpaces_length, ← hspaces, List.length_map]
    · have hindex := substReads_index hc s.pos hb a ha
      have htable := inAlphabet_of_mem_readSpaces hc (sp := a.space) (hspaces ▸ List.mem_map_of_mem ha)
      refine ⟨hindex, ?_⟩
      rw [readByte_isSome, htable.length]
      exact decide_eq_true hindex

end Sys2Proof.Machine
end

section
/-! PROOFS. Validation runs (spec/41_validator.md rules R102, R104, R107). -/

namespace Sys2Proof.Machine

open Host

theorem accepted_iff {c : Config} {b : List Byte} :
    Accepted c b ↔ (c.invalidPolicy = .fault → ∀ x ∈ b, x.toNat < c.A) := by
  simp only [Accepted, inDomain_iff]

theorem accepted_append {c : Config} {b e : List Byte} : Accepted c (b ++ e) ↔ Accepted c b ∧ Accepted c e := by
  simp only [Accepted, List.forall_mem_append, forall_and]

/-- Under `PASS` no byte raises. -/
theorem accepted_of_pass {c : Config} (hp : c.invalidPolicy = .pass) (b : List Byte) : Accepted c b :=
  fun hf => absurd (hp.symm.trans hf) (by decide)

/-- The output symbol of a byte of the alphabet (rule R107). -/
theorem outputAt_of_lt {c : Config} (k : Nat) {x : Byte} (hx : x.toNat < c.A) :
    outputAt c k x = BitVec.ofNat 8 (subst c (stepTimes c.A (k + 1) c.start) x.toNat) := by
  rw [outputAt, if_pos ((inDomain_iff c x).2 hx)]
  rfl

/-- A byte outside the alphabet is its own output symbol. -/
theorem outputAt_of_ge {c : Config} (k : Nat) {x : Byte} (hx : c.A ≤ x.toNat) : outputAt c k x = x := by
  rw [outputAt, if_neg (by simp [(inDomain_false_iff c x).2 hx])]

theorem getElem?_outputsOf (c : Config) (b : List Byte) (k : Nat) :
    (outputsOf c b)[k]? = b[k]?.map (outputAt c k) :=
  List.getElem?_mapIdx

/-- A fresh start and a list of bytes fed. -/
theorem execAll_init_feeds (s : State) (g : Byte) (b : List Byte) :
    ∃ s', execAll (.init g :: feeds b) s = .next s' ∧ RunState s.cfg b s' := by
  obtain ⟨t, ht, hrun⟩ := RunState.init s g
  obtain ⟨u, hu, hrun'⟩ := hrun.feeds b
  exact ⟨u, (execAll_cons ht _).trans hu, hrun'⟩

/-- `FEED` leaves a clear verdict clear. -/
theorem exec_feed_verdict {sym : Byte} {s s' : State} (h : exec (.feed sym) s = .next s') (hv : s.verdict = .none) :
    s'.verdict = .none := by
  cases exec_cases h with
  | feedTerminated _ _ => exact hv
  | feedSymbol _ _ _ _ => rfl
  | feedInvalid _ _ _ _ => rfl

theorem execAll_feeds_verdict {b : List Byte} {s s' : State} (h : execAll (feeds b) s = .next s')
    (hv : s.verdict = .none) : s'.verdict = .none := by
  induction b generalizing s with
  | nil =>
    cases h
    exact hv
  | cons x b ih =>
    obtain ⟨t, ht, _⟩ := exec_total (.feed x) s
    exact ih ((execAll_cons ht _).symm.trans h) (exec_feed_verdict ht hv)

/-- Settles O45: where a run of accepted bytes stands (`RunState`), with each output symbol written out. -/
theorem feedsSubstituteAtSuccessivePositions : Obligations.FeedsSubstituteAtSuccessivePositions := by
  intro s b g hb
  obtain ⟨s', hall, hrun⟩ := execAll_init_feeds s g b
  obtain ⟨hf, hpos, hout⟩ := hrun.running (accepted_iff.2 hb)
  have hverdict : s'.verdict = .none := execAll_feeds_verdict ((execAll_cons (exec_init g s) _).symm.trans hall) rfl
  refine ⟨s', hall, hpos, by rw [hout, outputsOf_length], hf, hverdict, fun k _ x hx => ?_⟩
  have hget : s'.out[k]? = some (outputAt s.cfg k x) := by
    rw [hout, getElem?_outputsOf, Option.mem_def.1 hx, Option.map_some]
  exact ⟨fun hlt => by rw [hget, outputAt_of_lt k hlt], fun hge => by rw [hget, outputAt_of_ge k hge]⟩

/-- The answer to the next `FEED` of a run in which no byte has raised is the output symbol. -/
theorem RunState.feed_rsp {c : Config} {fed : List Byte} {s s' : State} (h : RunState c fed s) {x : Byte}
    (ha : Accepted c (fed ++ [x])) (hx : exec (.feed x) s = .next s') :
    s'.rsp = some ⟨false, outputAt c fed.length x⟩ := by
  obtain ⟨hfed, hlast⟩ := accepted_append.1 ha
  obtain ⟨hf, hpos, _⟩ := h.running hfed
  have he : engineResult s.cfg (stepCounters s.cfg.A s.pos) x = .symbol (outputAt c fed.length x) := by
    rw [hpos, h.cfg, ← stepTimes_succ]
    exact engineResult_outputAt fun hp => hlast hp x (by simp)
  rw [exec_symbol_rsp (.inl rfl) hx, symbolResponse_running hf he]
  rfl

/-- The port runs the first commands of a list with the others still to come. -/
theorem run_withCommands_append {s : State} (hw : s.cfg.wellFormed = true) (is js : List Instr) :
    Sys2Proof.core.run is.length (s.withCommands (is ++ js)) = execAll is { s with inputs := js.map issue } := by
  rw [State.withCommands, List.map_append]
  exact run_driving hw is _

@[simp] theorem feeds_length (b : List Byte) : (feeds b).length = b.length := List.length_map _

theorem feeds_append (b e : List Byte) : feeds (b ++ e) = feeds b ++ feeds e := List.map_append

theorem validationRun_length (b : List Byte) : (validationRun b).length = b.length + 2 := by
  simp [validationRun]

/-- A validation run up to any byte, and what is still to come. -/
theorem validationRun_append (b e : List Byte) :
    validationRun (b ++ e) = (.init 0 :: feeds b) ++ (feeds e ++ [.finish 0]) := by
  simp [validationRun, feeds_append]

/-- A validation run on the port delivers `validate` of its input, in `VERDICT` and on `RSP`. -/
theorem run_validationRun {s : State} (hw : s.cfg.wellFormed = true) (b : List Byte) :
    ∃ s', Sys2Proof.core.run (b.length + 2) (s.withCommands (validationRun b)) = .next s' ∧
      s'.verdict = validate s.cfg b ∧ s'.rsp = some ⟨s'.fault, (validate s.cfg b).code.setWidth 8⟩ := by
  obtain ⟨t, hall, hrun⟩ := execAll_init_feeds { s with inputs := [] } 0 b
  have hverdict : verdictOf t = validate s.cfg b := hrun.verdict
  have hfinish : exec (.finish 0) t =
      .next { t with verdict := validate s.cfg b, rsp := some ⟨t.fault, (validate s.cfg b).byte⟩ } := by
    rw [exec_finish, hverdict]
  have hend := (execAll_append hall [.finish 0]).trans (execAll_cons hfinish [])
  rw [List.cons_append] at hend
  rw [← validationRun_length, run_withCommands hw]
  exact ⟨_, hend, rfl, rfl⟩

/-- The answer to the `FEED` of `x` behind `pre` on the port, where no byte has raised: the output symbol, at the
position of rule R102. -/
theorem run_feed_answer {s : State} (hw : s.cfg.wellFormed = true) {pre post : List Byte} {x : Byte}
    (ha : Accepted s.cfg (pre ++ [x])) :
    ∃ u, Sys2Proof.core.run (pre.length + 2) (s.withCommands (validationRun (pre ++ x :: post))) = .next u ∧
      u.rsp = some ⟨false, outputAt s.cfg pre.length x⟩ ∧
      u.pos = stepTimes s.cfg.A (pre.length + 1) s.cfg.start := by
  obtain ⟨t, hall, hrun⟩ := execAll_init_feeds { s with inputs := (feeds post ++ [Instr.finish 0]).map issue } 0 pre
  obtain ⟨u, hu, hrun'⟩ := hrun.feed x
  obtain ⟨_, hpos, _⟩ := hrun'.running ha
  refine ⟨u, ?_, hrun.feed_rsp ha hu, by simpa using hpos⟩
  have hfirst := run_withCommands_append hw (.init 0 :: feeds (pre ++ [x])) (feeds post ++ [.finish 0])
  rw [← validationRun_append, List.append_assoc] at hfirst
  simp only [List.length_cons, feeds_length, List.length_append, List.length_nil, List.singleton_append] at hfirst
  rw [hfirst, feeds_append]
  exact (execAll_append hall (feeds [x])).trans (execAll_cons hu [])

/-- `validate` where a byte raises (rule R107). -/
theorem validate_faulted {c : Config} {b : List Byte} (hp : c.invalidPolicy = .fault) (hb : ∃ x ∈ b, c.A ≤ x.toNat) :
    validate c b = .faulted := by
  simp only [← inDomain_false_iff] at hb
  rw [validate, if_pos ⟨hp, hb⟩]

/-- Settles O46: the run's end by `run_validationRun`, its answers by `run_feed_answer`, and the value of `validate`
by `validate_accept`, `validate_reject` and `validate_faulted`. -/
theorem validationRunDeliversValidate : Obligations.ValidationRunDeliversValidate := by
  intro s b hw
  refine ⟨run_validationRun hw b, fun hb => ?_, fun hp hbad => validate_faulted hp hbad⟩
  have ha : Accepted s.cfg b := accepted_iff.2 hb
  refine ⟨outputsOf s.cfg b, outputsOf_length _ _, fun k hk x hx => ?_, ?_, fun hne => ?_⟩
  · have hxk : b[k] = x := by simpa [hk] using hx
    have hsplit : b = b.take k ++ x :: b.drop (k + 1) := by
      rw [← hxk, List.cons_getElem_drop_succ, List.take_append_drop]
    have hlen : (b.take k).length = k := List.length_take_of_le hk.le
    have hpre : Accepted s.cfg (b.take k ++ [x]) := by
      rw [hsplit, ← List.singleton_append, ← List.append_assoc] at ha
      exact (accepted_append.1 ha).1
    obtain ⟨u, hrun, hrsp, hpos⟩ := run_feed_answer hw (post := b.drop (k + 1)) hpre
    rw [← hsplit, hlen] at hrun
    rw [hlen] at hrsp hpos
    refine ⟨u, outputAt s.cfg k x, ?_, hrun, hrsp, hpos, fun hlt => ?_, fun hge => outputAt_of_ge k hge⟩
    · rw [getElem?_outputsOf, Option.mem_def.1 hx, Option.map_some, Option.mem_def]
    · rw [hpos, outputAt_of_lt k hlt]
  · rw [validate_accept, and_iff_right ha, eq_iff_length_and_getElem?, outputsOf_length]
    refine and_congr_right fun hlen => ?_
    rw [hlen]
  · exact validate_reject ha fun hout => hne (validate_accept.2 ⟨ha, hout⟩)

/-- The byte a command feeds. -/
def fedByte : Instr → Option Byte
  | .feed sym => some sym
  | .init _   => none
  | .xform _  => none
  | .finish _ => none

/-- A run in which verdicts are taken along the way. -/
theorem RunState.feedsAndFinishes {c : Config} {fed : List Byte} {s : State} (h : RunState c fed s) {cs : List Instr}
    (hcs : ∀ i ∈ cs, (∃ sym, i = .feed sym) ∨ ∃ k, i = .finish k) :
    ∃ s', execAll cs s = .next s' ∧ RunState c (fed ++ cs.filterMap fedByte) s' := by
  induction cs generalizing fed s with
  | nil => exact ⟨s, rfl, by simpa using h⟩
  | cons i cs ih =>
    have hrest : ∀ j ∈ cs, (∃ sym, j = .feed sym) ∨ ∃ k, j = .finish k := fun j hj => hcs j (by simp [hj])
    obtain ⟨sym, rfl⟩ | ⟨k, rfl⟩ := hcs i (by simp)
    · obtain ⟨t, ht, hrun⟩ := h.feed sym
      obtain ⟨u, hu, hrun'⟩ := ih hrun hrest
      exact ⟨u, (execAll_cons ht _).trans hu, by simpa [fedByte] using hrun'⟩
    · obtain ⟨t, ht, hrun, _⟩ := h.finish k
      obtain ⟨u, hu, hrun'⟩ := ih hrun hrest
      exact ⟨u, (execAll_cons ht _).trans hu, by rwa [List.filterMap_cons_none rfl]⟩

/-- Settles O47: the run after the commands between, and the verdict of its state. -/
theorem everyFinishValidatesAllBytesFed : Obligations.EveryFinishValidatesAllBytesFed := by
  intro s cs g h hcs fed
  obtain ⟨t, ht, hrun⟩ := RunState.init s g
  obtain ⟨u, hu, hrun'⟩ := hrun.feedsAndFinishes hcs
  obtain ⟨v, hv, _, hverdict⟩ := hrun'.finish h
  refine ⟨v, ?_, hverdict.trans hrun'.verdict⟩
  rw [execAll_cons ht, execAll_append hu]
  exact execAll_cons hv []

end Sys2Proof.Machine
end

section
/-! PROOFS. Which inputs are accepted (spec/41_validator.md rules R108, R111). -/

namespace Sys2Proof.Machine

/-- An accepted input has the length of `EXPECTED`. -/
theorem length_of_validate_accept {c : Config} {b : List Byte} (h : validate c b = .accept) : b.length = c.L := by
  rw [← outputsOf_length c b, (validate_accept.1 h).2]
  rfl

/-- An input of another length in which no byte raises is rejected. -/
theorem validate_of_length_ne {c : Config} {b : List Byte} (ha : Accepted c b) (hlen : b.length ≠ c.L) :
    validate c b = .reject :=
  validate_reject ha fun h => hlen (length_of_validate_accept (validate_accept.2 ⟨ha, h⟩))

/-- Settles O48: all but the empty `EXPECTED` is a wrong length, with no fault because an accepted input has none. -/
theorem wrongLengthIsAlwaysRejected : Obligations.WrongLengthIsAlwaysRejected := by
  intro c
  have hnil : Accepted c [] := fun _ x hx => absurd hx (by simp)
  refine ⟨fun hL => ?_, fun hL => ?_, fun b hlen hb => ?_, fun b hL hacc => ?_, fun b e hne hacc => ?_⟩
  · exact validate_of_length_ne hnil (by simp; omega)
  · exact validate_accept.2 ⟨hnil, (List.length_eq_zero_iff.1 hL).symm⟩
  · exact validate_of_length_ne (accepted_iff.2 hb) hlen
  · have ha := (validate_accept.1 hacc).1
    have hlen := length_of_validate_accept hacc
    exact validate_of_length_ne (accepted_append.2 ⟨ha, ha⟩) (by simp; omega)
  · have ha := (accepted_append.1 (validate_accept.1 hacc).1).1
    have hlen := length_of_validate_accept hacc
    have he := List.length_pos_of_ne_nil hne
    exact validate_of_length_ne ha (by simp at hlen; omega)

/-- At any place different bytes give different output symbols. -/
theorem outputAt_injective {c : Config} (h : Valid c) (k : Nat) : Function.Injective (outputAt c k) :=
  Function.Involutive.injective (outputAt_outputAt h k)

theorem outputsOf_set (c : Config) (b : List Byte) (k : Nat) (x : Byte) :
    outputsOf c (b.set k x) = (outputsOf c b).set k (outputAt c k x) :=
  List.mapIdx_set

/-- Settles O49: the output at the place changed differs, as the byte does. -/
theorem changingOneSymbolRejects : Obligations.ChangingOneSymbolRejects := by
  intro c b k x hw hacc hk hx
  have hc : Valid c := (wellFormed_iff c).1 hw
  have hset := outputsOf_set c b k x
  have hdiff : (outputsOf c (b.set k x))[k]? ≠ (outputsOf c b)[k]? := by
    rw [getElem?_outputsOf, getElem?_outputsOf, List.getElem?_set_self hk]
    exact fun e => hx (Option.map_injective (outputAt_injective hc k) e).symm
  refine ⟨fun hacc' => hdiff ?_, hset, fun _ => hdiff⟩
  rw [(validate_accept.1 hacc').2, (validate_accept.1 hacc).2]

/-- The outputs of an input raise nothing where it raises nothing: an output lies in the alphabet as its byte does. -/
theorem Accepted.outputsOf {c : Config} (h : Valid c) {b : List Byte} (ha : Accepted c b) :
    Accepted c (outputsOf c b) := by
  rw [accepted_iff] at ha ⊢
  intro hp y hy
  obtain ⟨k, hk, rfl⟩ := List.mem_mapIdx.1 hy
  exact (outputAt_lt_iff h).2 (ha hp _ (List.getElem_mem hk))

/-- Reciprocity (rule R111 item 4): the one input that can be accepted is what `EXPECTED` gives, and it is when
`EXPECTED` raises nothing. -/
theorem validate_accept_iff_reciprocal {c : Config} (h : Valid c) {b : List Byte} :
    validate c b = .accept ↔ Accepted c c.expected ∧ b = outputsOf c c.expected := by
  rw [validate_accept]
  constructor
  · rintro ⟨ha, hout⟩
    rw [← hout]
    exact ⟨ha.outputsOf h, (outputsOf_outputsOf h b).symm⟩
  · rintro ⟨ha, rfl⟩
    exact ⟨ha.outputsOf h, outputsOf_outputsOf h c.expected⟩

/-- Settles O50: the run that feeds `EXPECTED` collects its outputs, which are the accepted input. -/
theorem feedingExpectedReturnsTheSecret : Obligations.FeedingExpectedReturnsTheSecret := by
  intro c hw
  have hc : Valid c := (wellFormed_iff c).1 hw
  refine ⟨?_, fun he => ?_, fun hp hbad b hacc => ?_⟩
  · rintro b s g rfl hacc -
    obtain ⟨ha, rfl⟩ := (validate_accept_iff_reciprocal hc).1 hacc
    obtain ⟨s', hall, hrun⟩ := execAll_init_feeds s g s.cfg.expected
    obtain ⟨_, _, hout⟩ := hrun.running ha
    exact ⟨s', hall, hout⟩
  · have ha : Accepted c c.expected := accepted_iff.2 fun _ => he
    exact ⟨outputsOf c c.expected, (validate_accept_iff_reciprocal hc).2 ⟨ha, rfl⟩,
      fun b' hacc => ((validate_accept_iff_reciprocal hc).1 hacc).2⟩
  · obtain ⟨y, hy, hge⟩ := hbad
    have hlt := accepted_iff.1 ((validate_accept_iff_reciprocal hc).1 hacc).1 hp y hy
    omega

/-- Settles O60: under `PASS` nothing raises, so `EXPECTED`'s outputs are the accepted input, symbol by symbol. -/
theorem passPolicyAcceptsExactlyOneInput : Obligations.PassPolicyAcceptsExactlyOneInput := by
  intro c hw hp
  have hc : Valid c := (wellFormed_iff c).1 hw
  refine ⟨outputsOf c c.expected, (validate_accept_iff_reciprocal hc).2 ⟨accepted_of_pass hp _, rfl⟩,
    fun b' hacc => ((validate_accept_iff_reciprocal hc).1 hacc).2, outputsOf_length c _, fun k _ y hy => ?_⟩
  have hget : (outputsOf c c.expected)[k]? = some (outputAt c k y) := by
    rw [getElem?_outputsOf, Option.mem_def.1 hy, Option.map_some]
  exact ⟨fun hge => by rw [hget, outputAt_of_ge k hge], fun hlt => by rw [hget, outputAt_of_lt k hlt]⟩

end Sys2Proof.Machine
end

section
/-! PROOFS. Lines of text (spec/30_encoding.md rules R66 to R69). -/

namespace Sys2Proof.Machine

/-! ## Cutting and parsing a whole line -/

/-- A line is what its tokens parse to, expanded. -/
theorem assembleLine_of_lex {line : List Char} {ts : List Token} (h : lex .gap line = .ok ts) :
    assembleLine line = (parseLine ts).map fun src => (src.map Source.expand).getD [] := by
  simp only [assembleLine, h, bind, Except.bind]
  cases parseLine ts with
  | error e => rfl
  | ok src => cases src <;> rfl

/-- A line whose tokens parse to a source line for what `r` holds assembles to its expansion, or to the error of `r`. -/
theorem assembleLine_of_parse {α : Type} {line : List Char} {ts : List Token} {r : Except AsmError α} {f : α → Source}
    (hl : lex .gap line = .ok ts) (hp : parseLine ts = r.map fun a => some (f a)) :
    assembleLine line = r.map fun a => (f a).expand := by
  rw [assembleLine_of_lex hl, hp]
  cases r <;> rfl

/-- A mnemonic with one operand behind a blank is two tokens, the second the operand's. -/
theorem lex_operand {m cs tail : List Char} {r : Except AsmError Byte}
    (hm : m = "FEED".toList ∨ m = "XFORM".toList ∨ m = "FEEDS".toList ∨ m = "VALIDATE".toList) (ht : LineEnd tail)
    (h : OperandOf cs r) : ∃ t, lex .gap (m ++ ' ' :: (cs ++ tail)) = .ok [.word m, t] ∧ parseOperand t = r := by
  obtain ⟨t, hparse, _, hcut⟩ := h.token
  refine ⟨t, lex_mnemonic hm ?_, hparse⟩
  rw [hcut tail ht.wordEnd, lex_lineEnd ht]
  rfl

theorem parseLine_feed (t : Token) :
    parseLine [.word "FEED".toList, t] = (parseOperand t).map fun v => some (.feed v) := by
  cases h : parseOperand t <;> simp [parseLine, h, bind, Except.bind, pure, Except.pure, Except.map]

theorem parseLine_xform (t : Token) :
    parseLine [.word "XFORM".toList, t] = (parseOperand t).map fun v => some (.xform v) := by
  cases h : parseOperand t <;> simp [parseLine, h, bind, Except.bind, pure, Except.pure, Except.map]

theorem parseLine_feeds (ts : List Token) :
    parseLine (.word "FEEDS".toList :: ts) = (parseOperands ts).map fun vs => some (.feeds vs) := by
  cases h : parseOperands ts <;> simp [parseLine, h, bind, Except.bind, pure, Except.pure, Except.map]

theorem parseLine_validate (ts : List Token) :
    parseLine (.word "VALIDATE".toList :: ts) = (parseOperands ts).map fun vs => some (.validate vs) := by
  cases h : parseOperands ts <;> simp [parseLine, h, bind, Except.bind, pure, Except.pure, Except.map]

/-- `FEED` with the text of an operand: the command, or the operand's error. -/
theorem assembleLine_feed {cs tail : List Char} {r : Except AsmError Byte} (ht : LineEnd tail) (h : OperandOf cs r) :
    assembleLine ("FEED ".toList ++ cs ++ tail) = r.map fun v => [.feed v] := by
  obtain ⟨t, hlex, rfl⟩ := lex_operand (.inl rfl) ht h
  rw [List.append_assoc]
  exact assembleLine_of_parse hlex (parseLine_feed t)

/-- `XFORM` likewise. -/
theorem assembleLine_xform {cs tail : List Char} {r : Except AsmError Byte} (ht : LineEnd tail) (h : OperandOf cs r) :
    assembleLine ("XFORM ".toList ++ cs ++ tail) = r.map fun v => [.xform v] := by
  obtain ⟨t, hlex, rfl⟩ := lex_operand (.inr (.inl rfl)) ht h
  rw [List.append_assoc]
  exact assembleLine_of_parse hlex (parseLine_xform t)

/-- `FEEDS` and `VALIDATE` with operands that parse to `r`. -/
theorem assembleLine_list {line : List Char} {ts : List Token} {r : Except AsmError (List Byte)}
    (hl : lex .gap line = .ok ts) (hp : parseOperands ts = r) :
    assembleLine ("FEEDS ".toList ++ line) = r.map feeds ∧
      assembleLine ("VALIDATE ".toList ++ line) = r.map validationRun := by
  subst hp
  exact ⟨assembleLine_of_parse (lex_mnemonic (.inr (.inr (.inl rfl))) hl) (parseLine_feeds ts),
    assembleLine_of_parse (lex_mnemonic (.inr (.inr (.inr rfl))) hl) (parseLine_validate ts)⟩

/-- A line of one word without operands is that one token. -/
theorem lex_bare {m tail : List Char} (hm : m = "INIT".toList ∨ m = "FINISH".toList) (ht : LineEnd tail) :
    lex .gap (m ++ tail) = .ok [.word m] := by
  have hw : m ≠ [] ∧ ∀ c ∈ m, wordChar c = true := by
    rcases hm with rfl | rfl <;> simp [wordChar, isBlankChar]
  rw [lex_word ht.wordEnd hw.1 hw.2, lex_lineEnd ht]
  rfl

theorem assembleLine_init {tail : List Char} (ht : LineEnd tail) :
    assembleLine ("INIT".toList ++ tail) = .ok [.init 0] := by
  rw [assembleLine_of_lex (lex_bare (.inl rfl) ht)]
  rfl

theorem assembleLine_finish {tail : List Char} (ht : LineEnd tail) :
    assembleLine ("FINISH".toList ++ tail) = .ok [.finish 0] := by
  rw [assembleLine_of_lex (lex_bare (.inr rfl) ht)]
  rfl

theorem assembleLine_lineEnd {tail : List Char} (ht : LineEnd tail) : assembleLine tail = .ok [] := by
  rw [assembleLine_of_lex (lex_lineEnd ht)]
  rfl

/-! ## Texts of a byte -/

theorem OperandText.operandOf {cs : List Char} {v : Byte} (h : OperandText cs v) : OperandOf cs (.ok v) :=
  .inl ⟨v, h, rfl⟩

theorem NumberText.operandOf {cs : List Char} {n : Nat} (h : NumberText cs n) (hn : 256 ≤ n) :
    OperandOf cs (.error .operandOutOfRange) :=
  .inr ⟨n, h, hn, rfl⟩

theorem digitChar_eq_hexDigit {d : Nat} (hd : d < 10) : d.digitChar = hexDigit d := by
  revert d
  decide

/-- The decimal text Lean writes of a number, as the digits of rule R67. -/
theorem toDigits_ten_eq_map_hexDigit (n : Nat) :
    ∃ digits : List Nat, digits ≠ [] ∧ (∀ d ∈ digits, d < 10) ∧ Nat.toDigits 10 n = digits.map hexDigit ∧
      n = Nat.ofDigits 10 digits.reverse := by
  induction n using Nat.strong_induction_on with
  | _ n ih =>
    rcases Nat.lt_or_ge n 10 with hn | hn
    · exact ⟨[n], by simp, by simpa using hn, by
        rw [Nat.toDigits_of_lt_base hn, digitChar_eq_hexDigit hn, List.map_singleton], by simp⟩
    · obtain ⟨digits, hne, hlt, htext, hvalue⟩ := ih (n / 10) (by omega)
      have hd : n % 10 < 10 := Nat.mod_lt _ (by omega)
      refine ⟨digits ++ [n % 10], by simp, ?_, ?_, ?_⟩
      · simpa [or_imp, forall_and] using ⟨hlt, hd⟩
      · rw [Nat.toDigits_of_base_le (by omega) hn, htext, digitChar_eq_hexDigit hd, List.map_append,
          List.map_singleton]
      · rw [List.reverse_concat, Nat.ofDigits_cons, ← hvalue]
        exact (Nat.mod_add_div n 10).symm

theorem operandText_toDigits (v : Byte) : OperandText (Nat.toDigits 10 v.toNat) v := by
  obtain ⟨digits, hne, hlt, htext, hvalue⟩ := toDigits_ten_eq_map_hexDigit v.toNat
  exact .inl ⟨digits, hne, .inl ⟨hlt, htext, hvalue⟩⟩

theorem operandText_hexByte (v : Byte) : OperandText (hexByte v) v := by
  have hv := v.isLt
  refine .inl ⟨[v.toNat / 16, v.toNat % 16], by simp, .inr ⟨?_, rfl, ?_⟩⟩
  · simp only [List.forall_mem_cons]
    exact ⟨by omega, by omega, by simp⟩
  · simp [Nat.ofDigits_cons, Nat.mod_add_div]

theorem operandByte_eq_error_iff (n : Nat) : operandByte n = .error .operandOutOfRange ↔ 256 ≤ n := by
  rw [← Nat.not_lt]
  by_cases hn : n < 256 <;> simp [operandByte, hn]

/-- Settles O57: each kind of line by its lemma, the texts of a byte, and the numbers of the words. -/
theorem assemblerEncodesOperands : Obligations.AssemblerEncodesOperands := by
  refine ⟨fun tail ht => ⟨fun cs v h => ?_, fun cs n h hn => ?_, assembleLine_init ht, assembleLine_finish ht,
    assembleLine_lineEnd ht⟩, fun v => ?_, operandByte_eq_error_iff, by decide, by decide⟩
  · exact ⟨assembleLine_feed ht h.operandOf, assembleLine_xform ht h.operandOf⟩
  · exact ⟨assembleLine_feed ht (h.operandOf hn), assembleLine_xform ht (h.operandOf hn)⟩
  · exact ⟨operandText_toDigits v, operandText_hexByte v, cmdWord_toNat 0b01#2 v, cmdWord_toNat 0b10#2 v⟩

/-! ## Disassembly -/

theorem lineEnd_nil : LineEnd [] := ⟨0, [], .inl rfl⟩

/-- The note of an ignored field is a comment. -/
theorem lineEnd_ignoredNote (ignored : Byte) : LineEnd (ignoredNote ignored) := by
  by_cases h : ignored = 0
  · rw [ignoredNote, if_pos h]
    exact lineEnd_nil
  · rw [ignoredNote, if_neg h]
    exact ⟨1, " ignored field ".toList ++ hexByte ignored, .inr rfl⟩

/-- Settles O58: each opcode's disassembly is a line of its mnemonic, with the operand's hexadecimal text or a
comment. -/
theorem disassemblyAssemblesAgain : Obligations.DisassemblyAssemblesAgain := by
  intro w
  obtain ⟨i, rfl⟩ : ∃ i, w = encode i := ⟨decode w, (encode_decode w).symm⟩
  rw [disassemble, decode_encode]
  cases i with
  | init ignored =>
    refine ⟨.init 0, assembleLine_init (lineEnd_ignoredNote ignored), rfl, by simp [encode], fun hcanon => ?_⟩
    rw [show ignored = 0 by simpa [Instr.wellFormed] using hcanon]
  | feed sym =>
    have hline := assembleLine_feed lineEnd_nil (operandText_hexByte sym).operandOf
    rw [List.append_nil] at hline
    exact ⟨.feed sym, hline, rfl, rfl, fun _ => rfl⟩
  | xform sym =>
    have hline := assembleLine_xform lineEnd_nil (operandText_hexByte sym).operandOf
    rw [List.append_nil] at hline
    exact ⟨.xform sym, hline, rfl, rfl, fun _ => rfl⟩
  | finish ignored =>
    refine ⟨.finish 0, assembleLine_finish (lineEnd_ignoredNote ignored), rfl, by simp [encode], fun hcanon => ?_⟩
    rw [show ignored = 0 by simpa [Instr.wellFormed] using hcanon]

/-! ## Pseudo-instructions -/

/-- An operand list as texts beside what each parses to, where every text is a byte's. -/
def okOperands (ops : List (List Char × Byte)) : List (List Char × Except AsmError Byte) :=
  ops.map fun p => (p.1, .ok p.2)

@[simp] theorem okOperands_texts (ops : List (List Char × Byte)) :
    (okOperands ops).map Prod.fst = ops.map Prod.fst := by
  simp [okOperands]

@[simp] theorem okOperands_values (ops : List (List Char × Byte)) :
    (okOperands ops).mapM Prod.snd = .ok (ops.map Prod.snd) := by
  induction ops with
  | nil => rfl
  | cons p ops ih =>
    rw [okOperands, List.map_cons, List.mapM_cons, ← okOperands, ih]
    rfl

theorem operandOf_of_mem_okOperands {ops : List (List Char × Byte)} (h : ∀ p ∈ ops, OperandText p.1 p.2) :
    ∀ p ∈ okOperands ops, OperandOf p.1 p.2 := by
  intro p hp
  obtain ⟨q, hq, rfl⟩ := List.mem_map.1 hp
  exact (h q hq).operandOf

/-- The first operand that is an error is the error of the list. -/
theorem mapM_okOperands_error (pre : List (List Char × Byte)) (cs : List Char) (e : AsmError)
    (post : List (List Char × Except AsmError Byte)) :
    (okOperands pre ++ (cs, .error e) :: post).mapM Prod.snd = .error e := by
  rw [List.mapM_append, okOperands_values, List.mapM_cons]
  rfl

/-- `FEEDS` and `VALIDATE` with a comma-separated list of operand texts. -/
theorem assembleLine_operands {sep tail : List Char} (ht : LineEnd tail) (hs : sep = [','] ∨ sep = [',', ' '])
    {ops : List (List Char × Except AsmError Byte)} (h : ∀ p ∈ ops, OperandOf p.1 p.2) :
    assembleLine ("FEEDS ".toList ++ (sep.intercalate (ops.map Prod.fst) ++ tail)) = (ops.mapM Prod.snd).map feeds ∧
      assembleLine ("VALIDATE ".toList ++ (sep.intercalate (ops.map Prod.fst) ++ tail)) =
        (ops.mapM Prod.snd).map validationRun := by
  obtain ⟨ts, hlex, hparse⟩ := parse_operands ht hs ops h
  exact assembleLine_list hlex hparse

/-- `FEEDS` and `VALIDATE` with a quoted string: one token, whose characters are the bytes. -/
theorem assembleLine_string {tail text : List Char} (ht : LineEnd tail) (h : ∀ c ∈ text, c.toNat < 128 ∧ c ≠ '"') :
    assembleLine ("FEEDS ".toList ++ '"' :: (text ++ '"' :: tail)) =
        .ok (feeds (text.map fun c => BitVec.ofNat 8 c.toNat)) ∧
      assembleLine ("VALIDATE ".toList ++ '"' :: (text ++ '"' :: tail)) =
        .ok (validationRun (text.map fun c => BitVec.ofNat 8 c.toNat)) := by
  have hlex : lex .gap ('"' :: (text ++ '"' :: tail)) = .ok [.text text] := by
    have hopen : lex .gap ('"' :: (text ++ '"' :: tail)) = lex (.text []) (text ++ '"' :: tail) := by
      simp [lex, isBlankChar]
    rw [hopen, lex_string (fun c hc => (h c hc).2), lex_lineEnd ht]
    rfl
  exact assembleLine_list hlex (mapM_charByte fun c hc => (h c hc).1)

/-- Settles O59: a list of bytes, a list with a number past 255, and a string, each through the cutter and the
parser. -/
theorem pseudoInstructionsExpand : Obligations.PseudoInstructionsExpand := by
  refine ⟨fun tail sep ht hs => ⟨fun ops h => ?_, fun pre post cs n h hn hge => ?_⟩, fun tail text ht h => ?_,
    fun vs => ⟨rfl, rfl⟩⟩
  · have hline := assembleLine_operands ht hs (operandOf_of_mem_okOperands h)
    rw [okOperands_texts, okOperands_values] at hline
    rw [List.append_assoc, List.append_assoc]
    exact hline
  · obtain ⟨hpre, hpost⟩ := List.forall_mem_append.1 h
    have hall : ∀ p ∈ okOperands pre ++ (cs, .error .operandOutOfRange) :: okOperands post, OperandOf p.1 p.2 :=
      List.forall_mem_append.2 ⟨operandOf_of_mem_okOperands hpre,
        List.forall_mem_cons.2 ⟨hn.operandOf hge, operandOf_of_mem_okOperands hpost⟩⟩
    have hline := assembleLine_operands ht hs hall
    rw [mapM_okOperands_error, List.map_append, List.map_cons, okOperands_texts, okOperands_texts] at hline
    exact hline
  · simpa only [List.append_assoc, List.cons_append] using assembleLine_string ht h

end Sys2Proof.Machine
end
